-- ==== Sys2Proof/Word.lean ====
section
/-! DEFINITION. The widths of the block's words (00_scope.md R4): every one is fixed, so each is a plain
bit vector. Bit 0 is the least significant bit (R5). -/

namespace Sys2Proof

/-- A data word: DIN, DOUT and a binary32 word are 32 bits (R4). -/
abbrev Word := BitVec 32

/-- A command word CMD, 16 bits (R4, R32). -/
abbrev CmdWord := BitVec 16

/-- A sensor register word, the two bytes MSB then LSB (R4, R15, R24). -/
abbrev RegWord := BitVec 16

/-- One byte: a current register byte, or PATCH's mask (R4, R34, R35). -/
abbrev Byte := BitVec 8

/-- STATUS is 2 bits wide (R4, R13). -/
abbrev StatusWord := BitVec 2

end Sys2Proof
end

