-- ==== Sys2Proof/Config.lean ====
section
/-! DEFINITION. What is fixed for the block. "The block takes no parameter as a model argument" (R4), and the
spec leaves no result of a command open, so there is no free value here. -/

namespace Sys2Proof

/-- The number of agents that may issue commands: exactly one, the host (R4 "Agents", R66, D15). -/
def Config.agents : Nat := 1

end Sys2Proof
end

