-- ==== Sys2Proof/Syntax.lean ====
section
/-! DEFINITION. The block's commands as syntax: one constructor of `Instr` per row of opcode_table.json (R36),
and the names of the configuration fields (R54). DIN is no part of an instruction: it is a data port (R32, R35). -/

namespace Sys2Proof

/-- The named configuration fields, in the order of their field ids 0 to 9 (R54, D11). -/
inductive Field where
  | alertOutput
  | alertPol
  | alertMode
  | alertCtrl
  | alertStatus
  | clearIrq
  | winLock
  | critLock
  | hyst
  | res
deriving DecidableEq, Repr

/-- The sensor byte a field lives in (R54, column "Byte"). -/
inductive FieldByte where
  | configLsb
  | configMsb
  | resolution
deriving DecidableEq, Repr

/-- Whether FSET may write the field (R54, column "Access"). -/
inductive Access where
  | readWrite
  | readOnly
deriving DecidableEq, Repr

/-- One row of the field table FT (R54). -/
structure FieldRow where
  fid    : BitVec 4
  byte   : FieldByte
  mask   : Byte
  shift  : Nat
  width  : Nat
  access : Access
deriving DecidableEq, Repr

/-- The five commands. Operands are those of the command word (R33, R34); the data operand is read from DIN (R35). -/
inductive Instr where
  /-- DECODE, R46: register word to binary32. -/
  | decode
  /-- ENCODE, R50: binary32 to register word. -/
  | encode
  /-- PATCH, R55: set (`set = true`, S = 1) or clear (S = 0) the bits of MASK in a byte. -/
  | patch (set : Bool) (mask : Byte)
  /-- FGET, R56: read one field, right-aligned. -/
  | fget (field : Field)
  /-- FSET, R57: write one field from the right-aligned value VAL. -/
  | fset (field : Field) (val : BitVec 2)
deriving DecidableEq, Repr

end Sys2Proof
end

