-- ==== Sys2Proof/Machine/FieldTable.lean ====
section
/-! DEFINITION. The field table FT (R54), and a field id's field. -/

namespace Sys2Proof

/-- FT, row by row as R54 lists it. -/
def fieldRow : Field → FieldRow
  | .alertOutput => ⟨0, .configLsb,  0x01, 0, 1, .readWrite⟩
  | .alertPol    => ⟨1, .configLsb,  0x02, 1, 1, .readWrite⟩
  | .alertMode   => ⟨2, .configLsb,  0x04, 2, 1, .readWrite⟩
  | .alertCtrl   => ⟨3, .configLsb,  0x08, 3, 1, .readWrite⟩
  | .alertStatus => ⟨4, .configLsb,  0x10, 4, 1, .readOnly⟩
  | .clearIrq    => ⟨5, .configLsb,  0x20, 5, 1, .readWrite⟩
  | .winLock     => ⟨6, .configLsb,  0x40, 6, 1, .readWrite⟩
  | .critLock    => ⟨7, .configLsb,  0x80, 7, 1, .readWrite⟩
  | .hyst        => ⟨8, .configMsb,  0x06, 1, 2, .readWrite⟩
  | .res         => ⟨9, .resolution, 0x03, 0, 2, .readWrite⟩

/-- The field id FID (R54, D11). -/
def Field.fid (f : Field) : BitVec 4 := (fieldRow f).fid

/-- FT[FID].mask (R54). -/
def Field.mask (f : Field) : Byte := (fieldRow f).mask

/-- FT[FID].shift: the position of the lowest 1 bit of the mask (R54). -/
def Field.shift (f : Field) : Nat := (fieldRow f).shift

/-- FT[FID].width: 1 for a flag, 2 for HYST and RES (R54). -/
def Field.width (f : Field) : Nat := (fieldRow f).width

/-- FT[FID].access (R54). -/
def Field.access (f : Field) : Access := (fieldRow f).access

/-- The byte the host must supply as DIN[7:0] for this field (R54, R72). -/
def Field.byte (f : Field) : FieldByte := (fieldRow f).byte

/-- The field a field id names; ids 10 to 15 are reserved (R34, R54). -/
def fieldOfId (fid : BitVec 4) : Option Field :=
  match fid.toNat with
  | 0 => some .alertOutput
  | 1 => some .alertPol
  | 2 => some .alertMode
  | 3 => some .alertCtrl
  | 4 => some .alertStatus
  | 5 => some .clearIrq
  | 6 => some .winLock
  | 7 => some .critLock
  | 8 => some .hyst
  | 9 => some .res
  | _ => none

/-- Whether VAL fits the field: for a 1-bit field (FID 0 to 7) VAL must be 0 or 1 (R37, R57). -/
def Field.admits (f : Field) (val : BitVec 2) : Bool := decide (val.toNat < 2 ^ f.width)

end Sys2Proof
end

