-- ==== Sys2Proof/WellFormed.lean ====
section
/-! DEFINITION. Which instructions are legal commands (R37). Reserved field ids and reserved bits cannot be
written as an `Instr`; the one condition left is that FSET's VAL fits its field. -/

namespace Sys2Proof

/-- A command has operands its encoding admits (R37): for FSET on a 1-bit field, VAL[1] = 0. -/
def Instr.wellFormed : Instr → Bool
  | .decode => true
  | .encode => true
  | .patch _ _ => true
  | .fget _ => true
  | .fset f v => f.admits v

/-- `Instr.wellFormed` as a proposition. -/
abbrev Instr.WellFormed (i : Instr) : Prop := i.wellFormed = true

end Sys2Proof
end

