-- ==== Sys2Proof/Decode.lean ====
section
/-! DEFINITION. Decoding a command word (R32 to R38), total on all 65,536 words and rejecting by name; then the
encoder, written from the field layouts of R33. A decoder needs CMD only (R32). -/

namespace Sys2Proof

/-- Why a command word is no legal command (R38). Every one of them makes the command raise ERR_ILLEGAL. -/
inductive DecodeError where
  /-- OP is 0x0 or 0x6 to 0xF (R36, R38). -/
  | reservedOp
  /-- A 1 in a reserved bit of R33 (R38). -/
  | reservedBits
  /-- FID 10 to 15 in FGET or FSET (R38). -/
  | reservedField
  /-- VAL[1] = 1 in FSET with FID 0 to 7 (R38). -/
  | valueTooWide
deriving DecidableEq, Repr

/-- OP = CMD[15:12] (R32). -/
def opField (c : CmdWord) : BitVec 4 := c.extractLsb' 12 4

/-- FID = CMD[3:0] (R34). -/
def fidField (c : CmdWord) : BitVec 4 := c.extractLsb' 0 4

/-- VAL = CMD[5:4] (R34). -/
def valField (c : CmdWord) : BitVec 2 := c.extractLsb' 4 2

/-- MASK = CMD[7:0] (R34). -/
def maskField (c : CmdWord) : Byte := c.extractLsb' 0 8

/-- S = CMD[8] (R34). -/
def setField (c : CmdWord) : Bool := c.getLsbD 8

/-- FGET's operands, once the reserved bits are known to be 0 (R37). -/
def decodeFget (fid : BitVec 4) : Except DecodeError Instr :=
  match fieldOfId fid with
  | some f => .ok (.fget f)
  | none => .error .reservedField

/-- FSET's operands, once the reserved bits are known to be 0 (R37). -/
def decodeFset (fid : BitVec 4) (val : BitVec 2) : Except DecodeError Instr :=
  match fieldOfId fid with
  | some f => if f.admits val then .ok (.fset f val) else .error .valueTooWide
  | none => .error .reservedField

/-- The decoder: OP first, then the reserved bits of that operation's layout, then its operands (R33, R36, R37). -/
def decodeCmd (c : CmdWord) : Except DecodeError Instr :=
  match (opField c).toNat with
  | 1 => if c.extractLsb' 0 12 = 0 then .ok .decode else .error .reservedBits
  | 2 => if c.extractLsb' 0 12 = 0 then .ok .encode else .error .reservedBits
  | 3 => if c.extractLsb' 9 3 = 0 then .ok (.patch (setField c) (maskField c)) else .error .reservedBits
  | 4 => if c.extractLsb' 4 8 = 0 then decodeFget (fidField c) else .error .reservedBits
  | 5 => if c.extractLsb' 6 6 = 0 then decodeFset (fidField c) (valField c) else .error .reservedBits
  | _ => .error .reservedOp

/-- The command word of an instruction: R33's layouts, from bit 15 down to bit 0. -/
def encode : Instr → CmdWord
  | .decode => 0b0001#4 ++ 0b000000000000#12
  | .encode => 0b0010#4 ++ 0b000000000000#12
  | .patch s m => 0b0011#4 ++ 0b000#3 ++ BitVec.ofBool s ++ m
  | .fget f => 0b0100#4 ++ 0b00000000#8 ++ f.fid
  | .fset f v => 0b0101#4 ++ 0b000000#6 ++ v ++ f.fid

/-- `legal(CMD)`, clause by clause as R37 writes it with masks: the second description of the words `decodeCmd` accepts. -/
def legal (c : CmdWord) : Bool :=
  c == 0x1000
  || c == 0x2000
  || (c &&& 0xFE00) == 0x3000
  || ((c &&& 0xFFF0) == 0x4000 && decide ((fidField c).toNat ≤ 9))
  || ((c &&& 0xFFC0) == 0x5000 && decide ((fidField c).toNat ≤ 9)
      && (decide (8 ≤ (fidField c).toNat) || c.getLsbD 5 == false))

/-- A row of R36's operation map: a word matches it when `(CMD & mask) == match`. -/
structure OpcodeRow where
  mnemonic : String
  matchWord : CmdWord
  maskWord : CmdWord
deriving DecidableEq, Repr

/-- R36's operation map: an instruction's row. -/
def opcodeRow : Instr → OpcodeRow
  | .decode => ⟨"DECODE", 0x1000, 0xFFFF⟩
  | .encode => ⟨"ENCODE", 0x2000, 0xFFFF⟩
  | .patch _ _ => ⟨"PATCH", 0x3000, 0xFE00⟩
  | .fget _ => ⟨"FGET", 0x4000, 0xFFF0⟩
  | .fset _ _ => ⟨"FSET", 0x5000, 0xFFC0⟩

/-- The command word that opcode_table.json's numbering of bits calls `w`: a command is one 16-bit word, so bit i of the
row is CMD[i], and a row of more bits is no command of this block (R32, R40). Bits from `nbits` up are 0. DEDUCED, log 6
(safe). -/
def tableCmd (nbits w : Nat) : Option CmdWord :=
  if nbits ≤ 16 then some (BitVec.ofNat 16 (w % 2 ^ nbits)) else none

/-- What the decoder reads from an instruction whose bits are `w`, numbered as opcode_table.json numbers them. -/
def decodeTableWord (nbits w : Nat) : Option Instr :=
  match tableCmd nbits w with
  | some c => (decodeCmd c).toOption
  | none => none

end Sys2Proof
end

