-- ==== Sys2Proof/Machine/State.lean ====
section
/-! DEFINITION. The block's state (R11), the host's inputs as plain data (R19, R68), the outcomes' reasons, and
the state after reset (R68). -/

namespace Sys2Proof.Machine

/-- One `issue(CMD, DIN)` of the host (R9). -/
structure Command where
  cmd : CmdWord
  din : Word
deriving DecidableEq, Repr

/-- What the host does in one slot between two states of the block: whether it asserts RST (R68), and the commands
issued in that slot. One host issues at most one; two or more stand for hosts issuing concurrently (R66). DESIGN CHOICE,
log 1 (safe). -/
structure Slot where
  rst    : Bool
  issued : List Command
deriving DecidableEq, Repr

/-- The block. `dout` and `status` are all of its own state (R11). `din` and `host` are the model's own fields for
its input ports: `din` is the DIN word the command being executed has sampled, `host` what the host will do, next slot
first (DESIGN CHOICE, log 1 and log 2; safe). CMD and DIN are inputs, not registers (R19). -/
structure State where
  /-- DOUT, the result word of the last completed command (R14). -/
  dout   : Word
  /-- STATUS, the outcome of the last completed command (R13). -/
  status : StatusWord
  /-- The DIN port, as sampled with the command being executed (R19, R28). Not a register of the block. -/
  din    : Word
  /-- The host's slots to come, next first. Not a register of the block. -/
  host   : List Slot
deriving DecidableEq, Repr

/-- Faults: there is none. "An illegal command does not trap" (R38) and "there is no trap" (R7, R60): an error is a
status code, so nothing stops the machine. DEDUCED, log 10 (safe). -/
inductive Fault where
deriving DecidableEq, Repr

/-- Why a step can have no meaning. -/
inductive Refusal where
  /-- Raised by exec for an instruction that has no meaning yet; in this model no arm raises it. Safe: nothing is claimed. -/
  | notModelled (mnemonic : String)
  /-- Raised by step when more than one command is issued in one slot: "such a configuration is refused" (R66, I3, D15).
  Safe: nothing is claimed of concurrent hosts. -/
  | concurrentHosts
deriving DecidableEq, Repr

/-- The errors a command can end in (R13, R59). -/
inductive Error where
  | range
  | illegal
  | readOnly
deriving DecidableEq, Repr

/-- What the next slot asks of the block, with the state after the slot is taken. -/
inductive Event where
  /-- The host has nothing more to do, or issues nothing in this slot. -/
  | idle (s : State)
  /-- RST is asserted (R68). -/
  | reset (s : State)
  /-- One command is issued (R9); its DIN has been sampled. -/
  | command (cmd : CmdWord) (s : State)
  /-- More commands at once than there are agents (R66). -/
  | conflict
deriving DecidableEq, Repr

/-- The three outcomes of a step of this machine. -/
abbrev Outcome := Host.Outcome State Fault Refusal

/-- The machine right after reset (R68): DOUT = 0, STATUS = 0 (OK). The input fields are the model's: no command has been
sampled (DESIGN CHOICE, log 2; unsafe to rest on) and the host has not said what it will do (DESIGN CHOICE, log 1; unsafe to
rest on). -/
def State.reset : State := { dout := 0, status := 0, din := 0, host := [] }

end Sys2Proof.Machine
end

