-- ==== Sys2Proof/Machine/Operands.lean ====
section
/-! DEFINITION. Where a command's data operand lies in DIN (R27, R35), the fields of a binary32 word (R8) and of a
register word (R15). Every other DIN bit is ignored (R27). -/

namespace Sys2Proof.Machine

/-- DECODE's operand `w = DIN[15:0]`, the register word {MSB, LSB} (R35, R24). -/
def regWordOperand (s : State) : RegWord := s.din.extractLsb' 0 16

/-- ENCODE's operand `x = DIN[31:0]`, a binary32 word (R35, R25). -/
def floatOperand (s : State) : Word := s.din

/-- The current register byte `cur = DIN[7:0]` of PATCH, FGET and FSET (R35). -/
def byteOperand (s : State) : Byte := s.din.extractLsb' 0 8

/-- `sgn(x) = x[31]` (R8). -/
def sgn (x : Word) : Bool := x.getLsbD 31

/-- `bexp(x) = x[30:23]`, the biased exponent (R8). -/
def bexp (x : Word) : Nat := (x.extractLsb' 23 8).toNat

/-- `frac(x) = x[22:0]` (R8). -/
def frac (x : Word) : BitVec 23 := x.extractLsb' 0 23

/-- SIGN, word bit 12 (R15). -/
def signFlag (w : RegWord) : Bool := w.getLsbD 12

/-- The magnitude in sixteenths, word bits 11:0 (R15). -/
def magnitude (w : RegWord) : Nat := (w.extractLsb' 0 12).toNat

end Sys2Proof.Machine
end

