-- ==== Sys2Proof/Machine/Flags.lean ====
section
/-! DEFINITION. STATUS codes (R13): the block's only flag register. -/

namespace Sys2Proof.Machine

/-- STATUS code 0, OK: the command succeeded (R13). -/
def statusOk : StatusWord := 0

/-- The STATUS code of an error (R13, R59): ERR_RANGE 1, ERR_ILLEGAL 2, ERR_READ_ONLY 3. -/
def Error.code : Error → StatusWord
  | .range => 1
  | .illegal => 2
  | .readOnly => 3

end Sys2Proof.Machine
end

