-- ==== Sys2Proof/Machine/Ops.lean ====
section
/-! DEFINITION. The operations every command is made of: taking the host's next slot, completing with a result,
raising an error (the block's whole exception mechanism, R60), and RST (R68). -/

namespace Sys2Proof.Machine

/-- A command completes: DOUT and STATUS are written together, as one state change (R28). -/
def State.complete (s : State) (v : Word) (code : StatusWord) : State :=
  { s with dout := v, status := code }

/-- The host's next slot is used up. -/
def State.nextSlot (s : State) (rest : List Slot) : State := { s with host := rest }

/-- A command samples DIN, once, as it is issued (R19, R28). -/
def State.sample (s : State) (din : Word) : State := { s with din := din }

/-- A command succeeds: `DOUT <- v`, `STATUS <- 0` (R13, R14). -/
def succeed (v : Word) (s : State) : Outcome := .next (s.complete v statusOk)

/-- `raise <Error>`: `DOUT <- 0x00000000`, `STATUS <-` the error's code, and nothing else (R7, R60). There is no trap and
nothing to return from: the next command runs normally (R60, R64). -/
def raise (e : Error) (s : State) : Outcome := .next (s.complete 0 e.code)

/-- RST: `DOUT <- 0x00000000`, `STATUS <- 0` (R68). -/
def resetBlock (s : State) : State := s.complete 0 statusOk

/-- What the host's next slot asks. More commands at once than there are agents is a conflict (R66), also while RST is
asserted (DEDUCED, log 4; safe); with RST asserted a command leaves no trace (R68); otherwise the command is taken and its DIN
sampled (R9). With no slot left, or an empty one, the block is idle (DEDUCED, log 3; safe): STATUS is written by a command
completing "and with nothing else" (R13). -/
def nextEvent (s : State) : Event :=
  match s.host with
  | [] => .idle s
  | slot :: rest =>
    if Config.agents < slot.issued.length then .conflict
    else if slot.rst then .reset (s.nextSlot rest)
    else
      match slot.issued with
      | [] => .idle (s.nextSlot rest)
      | c :: _ => .command c.cmd ((s.nextSlot rest).sample c.din)

/-- The slot in which the host issues one command, RST not asserted. -/
def issue (c : Command) : Slot := { rst := false, issued := [c] }

/-- The host issues `c` next, before whatever it was going to do. -/
def State.issueNext (s : State) (c : Command) : State := { s with host := issue c :: s.host }

end Sys2Proof.Machine
end

