-- ==== Sys2Proof/Machine/Bitfield.lean ====
section
/-! DEFINITION. The configuration bitfield packer: PATCH (R55), FGET (R56) and FSET (R57). -/

namespace Sys2Proof.Machine

/-- Replace the bits of `cur` under `mask` by those of `new`: `(cur & ~mask) | (new & mask)` (R55, R57). -/
def mergeBits (cur mask new : Byte) : Byte := (cur &&& ~~~mask) ||| (new &&& mask)

/-- PATCH's byte: the mask's bits are set or cleared (R55). -/
def patchByte (set : Bool) (mask cur : Byte) : Byte := mergeBits cur mask (if set then mask else 0)

/-- FGET's byte: the field's bits, right-aligned (R56). -/
def getField (f : Field) (cur : Byte) : Byte := (cur &&& f.mask) >>> f.shift

/-- FSET's byte: VAL placed in the field, every other bit kept (R57). -/
def setFieldByte (f : Field) (val : BitVec 2) (cur : Byte) : Byte :=
  mergeBits cur f.mask (val.setWidth 8 <<< f.shift)

/-- PATCH (R55). No read-only check (D12). -/
def execPatch (set : Bool) (mask : Byte) (s : State) : Outcome :=
  succeed ((patchByte set mask (byteOperand s)).setWidth 32) s

/-- FGET (R56). Read-only fields may be read. -/
def execFget (f : Field) (s : State) : Outcome :=
  succeed ((getField f (byteOperand s)).setWidth 32) s

/-- FSET (R57): a VAL too wide for the field is ERR_ILLEGAL, checked first (R61); then a read-only field is
ERR_READ_ONLY. DEDUCED, log 8: the decoder never gives a value too wide. -/
def execFset (f : Field) (val : BitVec 2) (s : State) : Outcome :=
  if f.admits val then
    if f.access = .readOnly then raise .readOnly s
    else succeed ((setFieldByte f val (byteOperand s)).setWidth 32) s
  else raise .illegal s

end Sys2Proof.Machine
end

