-- ==== Sys2Proof/Machine/Codec.lean ====
section
/-! DEFINITION. The register codec: DECODE (R44 to R46) and ENCODE (R47 to R50). -/

namespace Sys2Proof.Machine

/-- `dec16(w)`: the decoded value in sixteenths, 0 to 4096. With the sign flag set it is 256.0 - magnitude (R44). -/
def dec16 (w : RegWord) : Nat := if signFlag w then 4096 - magnitude w else magnitude w

/-- The index of the highest 1 bit of `v` among bits `k` down to 0; 0 if none of bits `k` to 1 is set. -/
def highestBit : Nat → Nat → Nat
  | 0, _ => 0
  | k + 1, v => if v.testBit (k + 1) then k + 1 else highestBit k v

/-- `f32_of16(v16)`: the binary32 word whose value is exactly v16 / 16, for v16 from 0 to 4096 (R45). The leading 1 at
index p gives the biased exponent p + 123; keeping 23 bits of `v16 << (23 - p)` removes it from the fraction. Outside that
range the value means nothing (DESIGN CHOICE, log 9; safe). -/
def f32Of16 (v : Nat) : Word :=
  if v = 0 then 0
  else
    let p := highestBit 12 v
    0#1 ++ BitVec.ofNat 8 (p + 123) ++ BitVec.ofNat 23 (v <<< (23 - p))

/-- `range_error(x) = (bexp(x) >= 135)`: |x| >= 256, or x is an infinity or NaN (R47). -/
def rangeError (x : Word) : Bool := decide (135 ≤ bexp x)

/-- ENCODE's right shift `23 - (e + 2) = 148 - bexp(x)` (R48); at least 14 for an x in range. -/
def encodeShift (x : Word) : Nat := 148 - bexp x

/-- The magnitude in quarters: the 24-bit mantissa with its leading 1 restored, shifted right; 0 for a shift of 24 or
more (R48, D7). -/
def quarters (x : Word) : BitVec 24 :=
  if 24 ≤ encodeShift x then 0 else (1#1 ++ frac x) >>> encodeShift x

/-- `mag12(x) = (q << 2) & 0xFFF`, for `bexp(x) <= 134` (R48); for other words it means nothing (DESIGN CHOICE, log 9; safe). -/
def mag12 (x : Word) : BitVec 12 := (quarters x <<< 2).setWidth 12

/-- `neg(x)`: the sign bit is set and x is not -0.0 (R49, D9). -/
def neg (x : Word) : Bool := sgn x && !(decide (bexp x = 0) && decide (frac x = 0))

/-- ENCODE's register word: flags 15:13 are 0, then the sign flag, then the magnitude (R50). -/
def encodedWord (x : Word) : RegWord := 0#3 ++ BitVec.ofBool (neg x) ++ mag12 x

/-- DECODE (R46). -/
def execDecode (s : State) : Outcome := succeed (f32Of16 (dec16 (regWordOperand s))) s

/-- ENCODE (R50): ERR_RANGE is checked first. -/
def execEncode (s : State) : Outcome :=
  if rangeError (floatOperand s) then raise .range s
  else succeed ((encodedWord (floatOperand s)).setWidth 32) s

end Sys2Proof.Machine
end

