-- ==== Sys2Proof/Machine/Dispatch.lean ====
section
/-! DEFINITION. The dispatch: one arm per command (R36, R37). -/

namespace Sys2Proof.Machine

def exec (i : Instr) (s : State) : Host.Outcome State Fault Refusal :=
  match i with
  -- 40_codec.md
  | .decode => Sys2Proof.Machine.execDecode s
  | .encode => Sys2Proof.Machine.execEncode s
  -- 41_bitfield.md
  | .patch set mask => Sys2Proof.Machine.execPatch set mask s
  | .fget field => Sys2Proof.Machine.execFget field s
  | .fset field val => Sys2Proof.Machine.execFset field val s

end Sys2Proof.Machine
end

