-- ==== Sys2Proof/Machine/Issue.lean ====
section
/-! DEFINITION. Running a command word: the legality test, then the matched operation (R37). -/

namespace Sys2Proof.Machine

/-- A command word on a state whose DIN has been sampled: a legal word runs its instruction (R37), any other raises
ERR_ILLEGAL, whatever is wrong with it (R38). -/
def execCommand (cmd : CmdWord) (s : State) : Outcome :=
  match decodeCmd cmd with
  | .ok i => exec i s
  | .error _ => raise .illegal s

end Sys2Proof.Machine
end

