-- ==== Sys2Proof/Machine/Step.lean ====
section
/-! DEFINITION. One step: the block answers the host's next slot. A command is one atomic step (R28, R74). -/

namespace Sys2Proof.Machine

/-- The block answers the host's next slot (R9, R13, R66, R68). -/
def step (s : State) : Host.Outcome State Fault Refusal :=
  match nextEvent s with
  | .idle s' => .next s'
  | .reset s' => .next (resetBlock s')
  | .command cmd s' => execCommand cmd s'
  | .conflict => .refused .concurrentHosts

/-- The host issues the command word `w` next, with the DIN its port holds now (DESIGN CHOICE, log 5 and log 6;
safe). -/
def State.withFetchWord (s : State) (nbits w : Nat) : State :=
  match tableCmd nbits w with
  | some c => s.issueNext { cmd := c, din := s.din }
  | none => s

end Sys2Proof.Machine
end

