-- ==== Sys2Proof/Machine/Asm.lean ====
section
/-! DEFINITION. The assembler (R41) and the pseudo-instructions (R42). Notation only (D18): the block sees the words.
A line is a list of characters; its reading is the pair of an instruction and a DIN word. DESIGN CHOICE, log 12 (safe): the
spacing, capitals and number forms that R41 leaves open. -/

namespace Sys2Proof.Machine

/-- `SETF <mask>` is `PATCH <mask>, 1` (R42). -/
def setf (mask : Byte) : Instr := .patch true mask

/-- `CLRF <mask>` is `PATCH <mask>, 0` (R42). -/
def clrf (mask : Byte) : Instr := .patch false mask

/-- `TESTF <fid>` is `FGET <fid>` (R42). -/
def testf (f : Field) : Instr := .fget f

/-- The mask names of R41. -/
def maskNames : List (String × Byte) :=
  [("CRIT_LOCK", 0x80), ("WIN_LOCK", 0x40), ("CLEAR_IRQ", 0x20), ("ALERT_STATUS", 0x10), ("ALERT_CTRL", 0x08),
   ("ALERT_MODE", 0x04), ("ALERT_POL", 0x02), ("ALERT_OUTPUT", 0x01), ("HYST_MASK", 0x06), ("RES_MASK", 0x03)]

/-- The field names of R54, with the fields they name. -/
def fieldNames : List (String × Field) :=
  [("ALERT_OUTPUT", .alertOutput), ("ALERT_POL", .alertPol), ("ALERT_MODE", .alertMode), ("ALERT_CTRL", .alertCtrl),
   ("ALERT_STATUS", .alertStatus), ("CLEAR_IRQ", .clearIrq), ("WIN_LOCK", .winLock), ("CRIT_LOCK", .critLock),
   ("HYST", .hyst), ("RES", .res)]

/-- The binary32 word nearest to num / den (den > 0), ties to even, with the given sign bit (R41, G3). The quotient is
taken in units of 2^-149, and cut to 24 significant bits; a carry out of the fraction moves into the exponent by itself, and
one out of the largest finite word gives an infinity. -/
def nearestFloat (negative : Bool) (num den : Nat) : Word :=
  let n := num * 2 ^ 149
  let t := Nat.log2 (n / den) - 23
  let d := den * 2 ^ t
  let q := n / d
  let r := n % d
  let up := d < 2 * r || (2 * r == d && q % 2 == 1)
  let bits := t * 2 ^ 23 + (if up then q + 1 else q)
  (if negative then 0x80000000 else 0) ||| (if bits < 0x7F800000 then BitVec.ofNat 32 bits else 0x7F800000)

/-- The value of a digit character in the given base (at most 16). -/
def digit (base : Nat) (c : Char) : Option Nat :=
  let n := c.toNat
  let v := if 48 ≤ n ∧ n ≤ 57 then n - 48 else if 65 ≤ n ∧ n ≤ 70 then n - 55 else if 97 ≤ n ∧ n ≤ 102 then n - 87 else 16
  if v < base then some v else none

/-- The digits' number, continuing from `acc`. -/
def digits (base : Nat) : Nat → List Char → Option Nat
  | acc, [] => some acc
  | acc, c :: cs =>
    match digit base c with
    | some v => digits base (acc * base + v) cs
    | none => none

/-- A decimal number of at least one digit. -/
def decimal (t : List Char) : Option Nat := if t = [] then none else digits 10 0 t

/-- A hexadecimal number: 0x and at least one digit (R5). -/
def hex : List Char → Option Nat
  | '0' :: 'x' :: c :: cs => digits 16 0 (c :: cs)
  | _ => none

/-- A number below a bound. -/
def below (bound : Nat) : Option Nat → Option Nat
  | some n => if n < bound then some n else none
  | none => none

/-- The entry of a table of names. -/
def named {α : Type} (t : List Char) : List (String × α) → Option α
  | [] => none
  | (n, a) :: rest => if n.toList = t then some a else named t rest

/-- `<mask>`: 0x00 to 0xFF, or a mask name (R41). -/
def maskArg (t : List Char) : Option Byte :=
  match named t maskNames with
  | some m => some m
  | none => (below 256 (hex t)).map (BitVec.ofNat 8)

/-- `<s>`: 0 or 1 (R41). -/
def bitArg (t : List Char) : Option Bool := (below 2 (decimal t)).map (· == 1)

/-- `<fid>`: 0 to 9, or a field name (R41). -/
def fieldArg (t : List Char) : Option Field :=
  match named t fieldNames with
  | some f => some f
  | none =>
    match below 10 (decimal t) with
    | some n => fieldOfId (BitVec.ofNat 4 n)
    | none => none

/-- `<val>`: 0 to 3 (R41). -/
def valArg (t : List Char) : Option (BitVec 2) := (below 4 (decimal t)).map (BitVec.ofNat 2)

/-- The characters after `din=`. -/
def dinText : List Char → Option (List Char)
  | 'd' :: 'i' :: 'n' :: '=' :: t => some t
  | _ => none

/-- `din=<hex>` with a value of the operand's width (R41). -/
def hexDin (bits : Nat) (t : List Char) : Option Word :=
  match dinText t with
  | some h => (below (2 ^ bits) (hex h)).map (BitVec.ofNat 32)
  | none => none

/-- The digits before a decimal point, and those after it if there is one. -/
def splitPoint : List Char → List Char × Option (List Char)
  | [] => ([], none)
  | c :: cs => if c = '.' then ([], some cs) else ((c :: (splitPoint cs).1), (splitPoint cs).2)

/-- A decimal literal without its sign, as the nearest binary32 word with the given sign (R41). -/
def unsignedLiteral (negative : Bool) (t : List Char) : Option Word :=
  match splitPoint t with
  | (whole, none) => (decimal whole).map fun n => nearestFloat negative n 1
  | (whole, some part) =>
    match decimal whole, decimal part with
    | some n, some f => some (nearestFloat negative (n * 10 ^ part.length + f) (10 ^ part.length))
    | _, _ => none

/-- ENCODE's din: a 32-bit hex word, or f and a decimal literal (R41). -/
def floatDin (t : List Char) : Option Word :=
  match dinText t with
  | some ('f' :: '-' :: d) => unsignedLiteral true d
  | some ('f' :: d) => unsignedLiteral false d
  | _ => hexDin 32 t

/-- A literal's point and the digits after it, if it has one. -/
def pointText : Option (List Char) → List Char
  | none => []
  | some p => '.' :: p

/-- The characters of a decimal literal after the `f`: a minus sign, the whole digits, and a point with its digits. For claims;
`unsignedLiteral` reads them. -/
def literalText (negative : Bool) (whole : List Char) (part : Option (List Char)) : List Char :=
  (if negative then ['-'] else []) ++ (whole ++ pointText part)

/-- The fraction a literal's digits stand for, sign aside: numerator and denominator (a power of 10); none where they are no
decimal digits. -/
def literalFraction (whole : List Char) (part : Option (List Char)) : Option (Nat × Nat) :=
  match part with
  | none => (decimal whole).map fun n => (n, 1)
  | some p =>
    match decimal whole, decimal p with
    | some n, some f => some (n * 10 ^ p.length + f, 10 ^ p.length)
    | _, _ => none

/-- A line up to its comment: a `;` starts one (R41). -/
def stripComment : List Char → List Char
  | [] => []
  | c :: cs => if c = ';' then [] else c :: stripComment cs

/-- A line's words, split at blanks; a comma is a word of its own. `cur` is the word being read. -/
def lineWords (cur : List Char) : List Char → List (List Char)
  | [] => if cur = [] then [] else [cur]
  | c :: cs =>
    if c = ' ' ∨ c = '\t' then (if cur = [] then lineWords [] cs else cur :: lineWords [] cs)
    else if c = ',' then (if cur = [] then [','] :: lineWords [] cs else cur :: [','] :: lineWords [] cs)
    else lineWords (cur ++ [c]) cs

/-- An instruction and a DIN word, where both could be read. -/
def line (i : Option Instr) (din : Option Word) : Option (Instr × Word) :=
  match i, din with
  | some i, some d => some (i, d)
  | _, _ => none

/-- A line's words as a command: the forms of R41 and the pseudo-instructions of R42. -/
def parseWords : List (List Char) → Option (Instr × Word)
  | [op, din] =>
    if op = "DECODE".toList then line (some .decode) (hexDin 16 din)
    else if op = "ENCODE".toList then line (some .encode) (floatDin din)
    else none
  | [op, a, din] =>
    if op = "FGET".toList then line ((fieldArg a).map .fget) (hexDin 8 din)
    else if op = "SETF".toList then line ((maskArg a).map setf) (hexDin 8 din)
    else if op = "CLRF".toList then line ((maskArg a).map clrf) (hexDin 8 din)
    else if op = "TESTF".toList then line ((fieldArg a).map testf) (hexDin 8 din)
    else none
  | [op, a, [','], b, din] =>
    if op = "PATCH".toList then
      match maskArg a, bitArg b with
      | some m, some s => line (some (.patch s m)) (hexDin 8 din)
      | _, _ => none
    else if op = "FSET".toList then
      match fieldArg a, valArg b with
      | some f, some v => line (some (.fset f v)) (hexDin 8 din)
      | _, _ => none
    else none
  | _ => none

/-- One assembly line as the command the host issues: exactly one (R41, R42). -/
def assemble (text : String) : Option Command :=
  match parseWords (lineWords [] (stripComment text.toList)) with
  | some (i, d) => some { cmd := encode i, din := d }
  | none => none

end Sys2Proof.Machine
end

