-- ==== Sys2Proof/Machine/Controller.lean ====
section
/-! DEFINITION. Which block commands a controller operation needs (R43). Informative in the spec: the controller is the
block's host (R3), and its bus reads and writes are outside the block. DEDUCED, log 13 (safe). -/

namespace Sys2Proof.Machine

/-- The controller operations of R43's table, with the bytes or words the host has read from the sensor and the operation's
own arguments. `lsb` and `msb` are the bytes of CONFIG. That m, p and o are single bits is R43's own inference (log 13). -/
inductive ControllerOp where
  | readTemperature (w : RegWord)
  | setCriticalTemperature (t : Word)
  | getCriticalTemperature (w : RegWord)
  | setWindowTemperature (upper lower : Word)
  | getWindowTemperature (upper lower : RegWord)
  | lockWindowTempReg (lsb : Byte)
  | unlockWindowTempReg (lsb : Byte)
  | lockCriticalTempReg (lsb : Byte)
  | unlockCriticalTempReg (lsb : Byte)
  | clearInterrupt (lsb : Byte)
  | isAlertAsserted (lsb : Byte)
  | enableAlert (lsb : Byte)
  | disableAlert (lsb : Byte)
  | setAlertMode (m : Bool) (lsb : Byte)
  | setAlertPolarity (p : Bool) (lsb : Byte)
  | setAlertOutput (o : Bool) (lsb : Byte)
  | getHysteresis (msb : Byte)
  | setHysteresis (h : BitVec 2) (msb : Byte)
  | getResolution (r : Byte)
  | setResolution (v : BitVec 2) (r : Byte)
  | getManufactureId
  | getId
  | initialise
  | setDeviceAddress
deriving DecidableEq, Repr

/-- The command of an instruction on a DIN word. -/
def command (i : Instr) (din : Word) : Command := { cmd := encode i, din := din }

/-- R43's column "Block command(s), with DIN", in the order the host issues them. -/
def ControllerOp.commands : ControllerOp → List Command
  | .readTemperature w => [command .decode (w.setWidth 32)]
  | .setCriticalTemperature t => [command .encode t]
  | .getCriticalTemperature w => [command .decode (w.setWidth 32)]
  | .setWindowTemperature u l => [command .encode u, command .encode l]
  | .getWindowTemperature u l => [command .decode (u.setWidth 32), command .decode (l.setWidth 32)]
  | .lockWindowTempReg b => [command (.patch true Field.winLock.mask) (b.setWidth 32)]
  | .unlockWindowTempReg b => [command (.patch false Field.winLock.mask) (b.setWidth 32)]
  | .lockCriticalTempReg b => [command (.patch true Field.critLock.mask) (b.setWidth 32)]
  | .unlockCriticalTempReg b => [command (.patch false Field.critLock.mask) (b.setWidth 32)]
  | .clearInterrupt b => [command (.patch true Field.clearIrq.mask) (b.setWidth 32)]
  | .isAlertAsserted b => [command (.fget .alertStatus) (b.setWidth 32)]
  | .enableAlert b => [command (.patch true Field.alertCtrl.mask) (b.setWidth 32)]
  | .disableAlert b => [command (.patch false Field.alertCtrl.mask) (b.setWidth 32)]
  | .setAlertMode m b => [command (.patch m Field.alertMode.mask) (b.setWidth 32)]
  | .setAlertPolarity p b => [command (.patch p Field.alertPol.mask) (b.setWidth 32)]
  | .setAlertOutput o b => [command (.patch o Field.alertOutput.mask) (b.setWidth 32)]
  | .getHysteresis b => [command (.fget .hyst) (b.setWidth 32)]
  | .setHysteresis h b => [command (.fset .hyst h) (b.setWidth 32)]
  | .getResolution b => [command (.fget .res) (b.setWidth 32)]
  | .setResolution v b => [command (.fset .res v) (b.setWidth 32)]
  | .getManufactureId => []
  | .getId => []
  | .initialise => []
  | .setDeviceAddress => []

end Sys2Proof.Machine
end

