-- ==== Sys2Proof/Machine/Pure.lean ====
section
/-! DEFINITION. `exec(CMD, DIN) = (dout, status)`, the pure function of R9, on raw words: a second description of the
commands that uses neither the decoder nor the field table nor the meanings. Claims compare the machine with it. It shares the
codec's helpers (dec16, f32Of16, mag12, neg, bexp) with DECODE's and ENCODE's meanings; claims with `val` check those. -/

namespace Sys2Proof.Machine

/-- A field's DOUT for a raw field id (R56): bit FID of the byte for FID 0 to 7, bits 2:1 for HYST, bits 1:0 for RES. -/
def pureGet (fid : Nat) (din : Word) : Word :=
  if fid = 9 then din &&& 3
  else if fid = 8 then (din >>> 1) &&& 3
  else (din >>> fid) &&& 1

/-- A field's mask in DIN for a raw field id (R54). -/
def pureMask (fid : Nat) : Word :=
  if fid = 9 then 0x03 else if fid = 8 then 0x06 else 1 <<< fid

/-- The position of a field's lowest bit for a raw field id (R54). -/
def pureShift (fid : Nat) : Nat := if fid = 9 then 0 else if fid = 8 then 1 else fid

/-- DOUT and STATUS after the command (R9): legality first (R37), then the operation OP selects (R36). -/
def pureExec (c : Command) : Word × StatusWord :=
  let fid := (c.cmd &&& 0x000F).toNat
  let mask := c.cmd.setWidth 32 &&& 0xFF
  if !legal c.cmd then (0, 2)
  else if c.cmd == 0x1000 then (f32Of16 (dec16 (c.din.setWidth 16)), 0)
  else if c.cmd == 0x2000 then
    if 135 ≤ bexp c.din then (0, 1)
    else
      ((if neg c.din then 0x1000 else 0) + (mag12 c.din).setWidth 32, 0)
  else if (c.cmd >>> 12) == 3 then
    ((c.din &&& 0xFF &&& ~~~mask) ||| (if c.cmd.getLsbD 8 then mask else 0), 0)
  else if (c.cmd >>> 12) == 4 then (pureGet fid c.din, 0)
  else if fid = 4 then (0, 3)
  else
    ((c.din &&& 0xFF &&& ~~~pureMask fid)
      ||| (((c.cmd.setWidth 32 >>> 4) &&& 3) <<< pureShift fid), 0)

end Sys2Proof.Machine
end

