-- ==== Sys2Proof/Machine/Value.lean ====
section
/-! DEFINITION. `val(x)`, the exact real number a binary32 word denotes (R6, R8), for claims about the codec. The machine
computes on bits only; nothing here is used by a step. -/

namespace Sys2Proof.Machine

/-- A word denotes a real number: it is neither an infinity nor NaN, bexp 255 (R8, R47). -/
def finite (x : Word) : Bool := decide (bexp x ≠ 255)

/-- |val(x)| in units of 2^-149, binary32's smallest step: subnormals have no leading 1 and the exponent of bexp 1 (R8). -/
def absUnits (x : Word) : Nat :=
  if bexp x = 0 then (frac x).toNat else (2 ^ 23 + (frac x).toNat) * 2 ^ (bexp x - 1)

/-- |val(x)|, for a finite x (R6). -/
def absVal (x : Word) : ℚ := (absUnits x : ℚ) / 2 ^ 149

/-- `val(x)`, for a finite x (R6, R8). For an infinity or NaN the number means nothing (DESIGN CHOICE, log 7;
safe). -/
def val (x : Word) : ℚ := if sgn x then -absVal x else absVal x

end Sys2Proof.Machine
end

