-- ==== Sys2Proof/Safety.lean ====
section
/-! DEFINITION. What counts as a safe run, and the terms claims use: a single host (R66), an error that leaves DOUT zero
(R14, R60), and the DIN and DOUT bits of each command (R27). -/

namespace Sys2Proof.Machine

/-- In every slot to come at most one command is issued: the configuration R66 admits. -/
abbrev State.SingleHost (s : State) : Prop := ∀ slot ∈ s.host, slot.issued.length ≤ 1

/-- STATUS tells the truth about DOUT: after an error DOUT is 0 (R14, R60). -/
abbrev State.ErrorMeansZero (s : State) : Prop := s.status ≠ 0 → s.dout = 0

/-- DOUT and STATUS, all of the block's own state (R11). -/
def State.result (s : State) : Word × StatusWord := (s.dout, s.status)

/-- R27, column "DIN bits read". -/
def dinRead : Instr → Word
  | .decode => 0x0000FFFF
  | .encode => 0xFFFFFFFF
  | .patch _ _ => 0x000000FF
  | .fget _ => 0x000000FF
  | .fset _ _ => 0x000000FF

/-- R27, column "DOUT bits written with a result". -/
def doutWritten : Instr → Word
  | .decode => 0xFFFFFFFF
  | .encode => 0x0000FFFF
  | .patch _ _ => 0x000000FF
  | .fget _ => 0x00000003
  | .fset _ _ => 0x000000FF

end Sys2Proof.Machine
end

