-- ==== Sys2Proof/Certificates/Slice0/Obligations.lean ====
section
/-! DEFINITION. The statements for the provers. Each docstring names the rule or the section of spec/ it formalises. -/

open Sys2Proof Sys2Proof.Machine

/-! ## Encoding -/

/-- Decode and encode agree: every legal instruction, with every operand at every value its encoding admits, is read back
from its own word. -/
def Obligations.DecodingTheEncodingGivesTheInstruction : Prop :=
  ∀ i : Instr, i.WellFormed → decodeCmd (encode i) = .ok i

/-- Each word has one meaning: what decodes is legal syntax and encodes to the same word again. -/
def Obligations.EncodingTheDecodedInstructionGivesTheWord : Prop :=
  ∀ (c : CmdWord) (i : Instr), decodeCmd c = .ok i → i.WellFormed ∧ encode i = c

/-- R37 (legality): the decoder accepts exactly the words of R37's five clauses, written out here; R36: the instruction it
gives is of the row the word matches; R34: its operands are CMD[8], CMD[7:0], CMD[3:0] and CMD[5:4]. Dispatch (R37): a legal
word runs its instruction, any other raises ERR_ILLEGAL. -/
def Obligations.LegalWordsAreThoseOfTheFiveRows : Prop :=
  (∀ c : CmdWord, (∃ i, decodeCmd c = .ok i) ↔
    (c = 0x1000 ∨ c = 0x2000 ∨ c &&& 0xFE00 = 0x3000
      ∨ (c &&& 0xFFF0 = 0x4000 ∧ (c.extractLsb' 0 4).toNat ≤ 9)
      ∨ (c &&& 0xFFC0 = 0x5000 ∧ (c.extractLsb' 0 4).toNat ≤ 9
          ∧ (8 ≤ (c.extractLsb' 0 4).toNat ∨ c.getLsbD 5 = false)))) ∧
  (∀ (c : CmdWord) (i : Instr), decodeCmd c = .ok i →
    c &&& (opcodeRow i).maskWord = (opcodeRow i).matchWord ∧
    match i with
    | .decode => True
    | .encode => True
    | .patch set mask => set = c.getLsbD 8 ∧ mask = c.extractLsb' 0 8
    | .fget f => f.fid = c.extractLsb' 0 4
    | .fset f v => f.fid = c.extractLsb' 0 4 ∧ v = c.extractLsb' 4 2) ∧
  (∀ (c : CmdWord) (s : State),
    (∀ i, decodeCmd c = .ok i → execCommand c s = exec i s) ∧
    ((∀ i, decodeCmd c ≠ .ok i) → execCommand c s = .next { s with dout := 0, status := 2 }))

/-- R38: which words are illegal (a reserved OP, a 1 in a reserved bit, FID 10 to 15, VAL[1] on a 1-bit field), and that an
illegal command does not trap but completes with DOUT = 0 and STATUS = 2. -/
def Obligations.IllegalCommandsCompleteWithErrIllegal : Prop :=
  (∀ c : CmdWord, legal c = false ↔
    (let op := (c.extractLsb' 12 4).toNat
     let fid := (c.extractLsb' 0 4).toNat
     op = 0 ∨ 6 ≤ op
      ∨ (op = 1 ∧ c.extractLsb' 0 12 ≠ 0) ∨ (op = 2 ∧ c.extractLsb' 0 12 ≠ 0)
      ∨ (op = 3 ∧ c.extractLsb' 9 3 ≠ 0)
      ∨ (op = 4 ∧ (c.extractLsb' 4 8 ≠ 0 ∨ 10 ≤ fid))
      ∨ (op = 5 ∧ (c.extractLsb' 6 6 ≠ 0 ∨ 10 ≤ fid ∨ (fid ≤ 7 ∧ c.getLsbD 5 = true))))) ∧
  (∀ (s : State) (c : CmdWord), legal c = false →
    execCommand c s = .next { s with dout := 0x00000000, status := 2 })

/-- R42: the three pseudo-instructions expand to one command each, with the word the table gives. -/
def Obligations.PseudoInstructionsExpandToOneCommand : Prop :=
  (∀ m : Byte, setf m = .patch true m ∧ encode (setf m) = 0x3100 ||| m.setWidth 16) ∧
  (∀ m : Byte, clrf m = .patch false m ∧ encode (clrf m) = 0x3000 ||| m.setWidth 16) ∧
  (∀ f : Field, testf f = .fget f ∧ encode (testf f) = 0x4000 ||| f.fid.setWidth 16)

/-- A few words written out from R33's layouts decode to the instructions they stand for. -/
def Obligations.SampleWordsDecodeAsR33LaysThemOut : Prop :=
  decodeCmd 0b0001000000000000 = .ok .decode ∧
  decodeCmd 0b0010000000000000 = .ok .encode ∧
  decodeCmd 0b0011000101000000 = .ok (.patch true 0x40) ∧
  decodeCmd 0b0100000000001000 = .ok (.fget .hyst) ∧
  decodeCmd 0b0101000000101001 = .ok (.fset .res 2)

/-! ## The step -/

/-- When the host issues a command (RST not asserted), a step takes the slot, samples DIN and runs the command word; a word
that decodes to `i` runs exec of `i`. The list of slots and the DIN port are the model's own form for the host's inputs
(log 1, log 2). -/
def Obligations.StepRunsTheIssuedInstruction : Prop :=
  (∀ (s : State) (cmd : CmdWord) (din : Word) (rest : List Slot),
    s.host = { rst := false, issued := [{ cmd := cmd, din := din }] } :: rest →
    step s = execCommand cmd { s with host := rest, din := din }) ∧
  (∀ (s : State) (cmd : CmdWord) (din : Word) (rest : List Slot) (i : Instr),
    s.host = { rst := false, issued := [{ cmd := cmd, din := din }] } :: rest → decodeCmd cmd = .ok i →
    step s = exec i { s with host := rest, din := din })

/-- The word that withFetchWord issues is the very next instruction to run, on a state that differs in nothing else
(the model's own way to place a word: log 5, log 6). -/
def Obligations.FetchWordRunsExactlyThatInstruction : Prop :=
  ∀ (s : State) (i : Instr), i.WellFormed → step (s.withFetchWord 16 (encode i).toNat) = exec i s

/-- Reset (70_reset_and_hazards.md section 1) leaves DOUT = 0 and STATUS = 0, and so does a slot with RST from every state; a
command issued in that slot is not executed and leaves no trace. The slot is the model's form for the input RST (log 1). -/
def Obligations.ResetClearsDoutAndStatus : Prop :=
  State.reset.dout = 0x00000000 ∧ State.reset.status = 0 ∧
  (∀ (s : State) (issued : List Command) (rest : List Slot),
    s.host = { rst := true, issued := issued } :: rest → issued.length ≤ 1 →
    step s = .next { s with host := rest, dout := 0x00000000, status := 0 })

/-- The model's idle step (log 3): with no command to run and no RST, DOUT and STATUS keep their values. -/
def Obligations.IdleStepsWriteNothing : Prop :=
  (∀ s : State, s.host = [] → step s = .next s) ∧
  (∀ (s : State) (rest : List Slot), s.host = { rst := false, issued := [] } :: rest →
    step s = .next { s with host := rest })

/-- Only a command or RST changes DOUT or STATUS: a step that changes them takes a slot with RST or with one command (the
slot is the model's form for the host's inputs, log 1). -/
def Obligations.OnlyCommandsAndResetWriteTheResult : Prop :=
  ∀ s t : State, step s = .next t → t.result ≠ s.result →
    ∃ slot rest, s.host = slot :: rest ∧ t.host = rest ∧
      (slot.rst = true ∨ ∃ c, slot.issued = [c] ∧ t.result = pureExec c)

/-- A step is refused exactly when commands are issued concurrently, under that name (60_exceptions.md section 4; two commands
in one slot are the model's form of concurrent hosts, log 1 and log 4). And no step faults: errors are no traps
(60_exceptions.md section 2), for which the model's Fault has no constructor (log 10, DEDUCED), so this clause holds by the
type alone. -/
def Obligations.OnlyConcurrentHostsAreRefused : Prop :=
  (∀ (s : State) (r : Refusal), step s = .refused r ↔
    (r = .concurrentHosts ∧ ∃ slot rest, s.host = slot :: rest ∧ 2 ≤ slot.issued.length)) ∧
  (∀ (s : State) (f : Fault), step s ≠ .fault f)

/-- R9: the effect of `issue(CMD, DIN)` is the atomic change that gives DOUT and STATUS the values of the pure function
`exec(CMD, DIN)`, here `pureExec`. That is written on raw words without decoder, field table or meanings, but it shares the
codec's helpers `dec16`, `f32Of16`, `mag12`, `neg` and `bexp` with DECODE's and ENCODE's meanings: for those two commands this
compares decoding, dispatch and placement of the result, and the statements with `val` check the helpers. -/
def Obligations.CommandsRefineThePureFunction : Prop :=
  ∀ (s : State) (c : CmdWord), execCommand c s =
    .next { s with
      dout := (pureExec { cmd := c, din := s.din }).1,
      status := (pureExec { cmd := c, din := s.din }).2 }

/-- Sequential consistency with one agent (20_memory.md section 4): after the host has issued a list of commands, each in its
slot (log 1), DOUT and STATUS hold what the pure function gives for the last of them, or what they held if there was none. -/
def Obligations.RunShowsTheLastCommand : Prop :=
  ∀ (cs : List Command) (s : State) (rest : List Slot), s.host = cs.map issue ++ rest →
    ∃ t : State, Host.Core.run Sys2Proof.core cs.length s = .next t ∧ t.host = rest ∧
      t.result = (match cs.getLast? with
        | none => s.result
        | some c => pureExec c)

/-- Under the one host the spec admits, the block answers every slot, and no run of any length stops. The slots are the model's
form for the host's inputs (log 1, DESIGN CHOICE). Beyond the end of the host's list the run goes on because a step there answers
the same state, which is the model's choice (log 3, DESIGN CHOICE). -/
def Obligations.SingleHostRunsNeverStop : Prop :=
  ∀ (n : Nat) (s : State), s.SingleHost →
    ∃ t : State, Host.Core.run Sys2Proof.core n s = .next t ∧ t.SingleHost ∧ t.host = s.host.drop n

/-- Invariant: after an error DOUT is 0 (R14, R60), in every state a step leads to from a state where that holds. -/
def Obligations.StepKeepsErrorMeansZero : Prop :=
  ∀ s t : State, s.ErrorMeansZero → step s = .next t → t.ErrorMeansZero

/-- The invariant of StepKeepsErrorMeansZero holds at reset. -/
def Obligations.ResetMeetsErrorMeansZero : Prop := State.reset.ErrorMeansZero

/-- No hidden state: what a command leaves in DOUT and STATUS depends on CMD and DIN alone, not on the state it meets, errors
of earlier commands included. -/
def Obligations.CommandsSeeNoEarlierState : Prop :=
  ∀ (s t : State) (c : CmdWord), s.din = t.din →
    ∃ s' t' : State, execCommand c s = .next s' ∧ execCommand c t = .next t' ∧ s'.result = t'.result

/-! ## Errors and frames -/

/-- R59 and R61: STATUS after any command, as a function of CMD and DIN: legality is checked first, then FSET's read-only
field, then ENCODE's range. A command that ends in an error leaves DOUT = 0, whatever DOUT held before, and every command
leaves all but DOUT and STATUS as it was. -/
def Obligations.ErrorsAreReportedInPriorityOrder : Prop :=
  ∀ (s : State) (c : CmdWord),
    ∃ t : State, execCommand c s = .next t ∧
      t.status =
        (if legal c = false then 2
         else if (c.extractLsb' 12 4).toNat = 5 ∧ (c.extractLsb' 0 4).toNat = 4 then 3
         else if (c.extractLsb' 12 4).toNat = 2 ∧ 135 ≤ (s.din.extractLsb' 23 8).toNat then 1
         else 0) ∧
      (t.status ≠ 0 → t.dout = 0x00000000) ∧
      t = { s with dout := t.dout, status := t.status }

/-- The frame of all five instructions: exec answers a next state in which only DOUT and STATUS can differ. -/
def Obligations.InstructionsWriteOnlyDoutAndStatus : Prop :=
  ∀ (i : Instr) (s : State), ∃ t : State, exec i s = .next t ∧ t = { s with dout := t.dout, status := t.status }

/-- R27: the DIN bits outside a command's list have no effect, and the DOUT bits outside its list are written 0. -/
def Obligations.UnreadDinBitsHaveNoEffect : Prop :=
  ∀ (i : Instr) (s t : State), s.din &&& dinRead i = t.din &&& dinRead i →
    ∃ s' t' : State, exec i s = .next s' ∧ exec i t = .next t' ∧ s'.result = t'.result ∧
      s'.dout &&& ~~~doutWritten i = 0

/-! ## DECODE -/

/-- R44 and R46: DECODE's result for every DIN, always OK; its word is CMD = 0x1000 exactly. -/
def Obligations.DecodeWritesTheConvertedWord : Prop :=
  (∀ s : State, exec .decode s = .next { s with
      dout :=
        (let w : RegWord := s.din.extractLsb' 0 16
         let mag := (w.extractLsb' 0 12).toNat
         f32Of16 (if w.getLsbD 12 then 4096 - mag else mag)),
      status := 0 }) ∧
  (∀ c : CmdWord, decodeCmd c = .ok .decode ↔ c = 0x1000)

/-- DECODE is exact: the word it writes denotes magnitude/16, or 256 - magnitude/16 with the sign flag set, and is a
non-negative finite binary32 word, never -0.0 and never subnormal. -/
def Obligations.DecodeIsExact : Prop :=
  ∀ s : State, ∃ t : State, exec .decode s = .next t ∧ t.status = 0 ∧
    val t.dout =
      (let mag : ℚ := ((s.din.extractLsb' 0 12).toNat : ℚ) / 16
       if s.din.getLsbD 12 then 256 - mag else mag) ∧
    finite t.dout = true ∧ sgn t.dout = false ∧ (bexp t.dout = 0 → t.dout = 0x00000000)

/-- Law 1 of the codec: DECODE's result is in [0, 255.9375] with the sign flag clear and in [0.0625, 256] with it set. -/
def Obligations.DecodeResultRange : Prop :=
  ∀ s : State, ∃ t : State, exec .decode s = .next t ∧
    (s.din.getLsbD 12 = false → 0 ≤ val t.dout ∧ val t.dout ≤ 4095 / 16) ∧
    (s.din.getLsbD 12 = true → 1 / 16 ≤ val t.dout ∧ val t.dout ≤ 256)

/-- Which words decode alike: exactly those whose bits 12:0 agree, or whose sign flags differ while the sign-set magnitude is
4096 minus the other. -/
def Obligations.DecodeAliases : Prop :=
  ∀ s t : State, ∃ s' t' : State, exec .decode s = .next s' ∧ exec .decode t = .next t' ∧
    (s'.dout = t'.dout ↔
      (s.din.extractLsb' 0 13 = t.din.extractLsb' 0 13 ∨
       (s.din.getLsbD 12 ≠ t.din.getLsbD 12 ∧
        (s.din.extractLsb' 0 12).toNat + (t.din.extractLsb' 0 12).toNat = 4096)))

/-- The helper of 40_codec.md section 1: f32Of16 builds, for v from 0 to 4096, the word with biased exponent p + 123 and the
fraction left of v's highest 1 bit at index p; its value is exactly v / 16. -/
def Obligations.FloatOfSixteenthsIsExact : Prop :=
  f32Of16 0 = 0x00000000 ∧
  ∀ v p : Nat, v ≤ 4096 → 2 ^ p ≤ v → v < 2 ^ (p + 1) →
    f32Of16 v = 0#1 ++ (BitVec.ofNat 8 (p + 123) ++ BitVec.ofNat 23 (v <<< (23 - p))) ∧
    val (f32Of16 v) = (v : ℚ) / 16

/-! ## ENCODE -/

/-- R50: ENCODE's result for every DIN, with the helpers R48 and R49 written out: the register word with flags 15:13 zero, the
sign flag for a negative value and the truncated magnitude; or ERR_RANGE. Its word is CMD = 0x2000 exactly. -/
def Obligations.EncodeWritesTheRegisterWord : Prop :=
  (∀ s : State, (s.din.extractLsb' 23 8).toNat < 135 → exec .encode s = .next { s with
      dout :=
        (let e := (s.din.extractLsb' 23 8).toNat
         let f : BitVec 23 := s.din.extractLsb' 0 23
         let m : BitVec 24 := 1#1 ++ f
         let q : BitVec 24 := if 24 ≤ 148 - e then 0 else m >>> (148 - e)
         let r : BitVec 12 := q.setWidth 12 <<< 2
         let sign := if s.din.getLsbD 31 = true ∧ ¬ (e = 0 ∧ f = 0) then 1#1 else 0#1
         let msb : Byte := 0b000#3 ++ sign ++ r.extractLsb' 8 4
         let lsb : Byte := r.extractLsb' 0 8
         0#16 ++ (msb ++ lsb)),
      status := 0 }) ∧
  (∀ s : State, 135 ≤ (s.din.extractLsb' 23 8).toNat →
    exec .encode s = .next { s with dout := 0x00000000, status := 1 }) ∧
  (∀ c : CmdWord, decodeCmd c = .ok .encode ↔ c = 0x2000)

/-- R47: ENCODE reports ERR_RANGE for exactly the inputs whose magnitude is 256.0 or more, the infinities and the NaNs. -/
def Obligations.EncodeRangeErrorExactly : Prop :=
  ∀ s : State, ∃ t : State, exec .encode s = .next t ∧
    (t.status = 1 ↔ (finite s.din = false ∨ 256 ≤ |val s.din|)) ∧ (t.status ≠ 1 → t.status = 0)

/-- R49: for a word that is not NaN, `neg` holds exactly when its value is below 0; so -0.0 is not negative. -/
def Obligations.NegIsTheSignOfTheValue : Prop :=
  ∀ x : Word, ¬ (bexp x = 255 ∧ frac x ≠ 0) → (neg x = true ↔ (if bexp x = 255 then sgn x = true else val x < 0))

/-- For an input in range ENCODE writes 4 times the floor of 4 |val(x)| as the magnitude (truncation toward zero to a multiple
of 1/4, in sixteenths), bit 12 set exactly for a negative value, and every higher bit 0. -/
def Obligations.EncodeTruncatesToQuarters : Prop :=
  ∀ s : State, finite s.din = true → |val s.din| < 256 →
    ∃ t : State, exec .encode s = .next t ∧ t.status = 0 ∧
      (((t.dout.extractLsb' 0 12).toNat : ℤ) = 4 * ⌊4 * |val s.din|⌋) ∧
      (t.dout.getLsbD 12 = true ↔ val s.din < 0) ∧ t.dout.extractLsb' 13 19 = 0

/-- Law 2 of the codec: for 0 <= val(x) < 256, DECODE of ENCODE's result gives exactly floor(4 val(x)) / 4, so the error is
below 0.25, and zero for a multiple of 0.25. -/
def Obligations.NonNegativeRoundTrip : Prop :=
  ∀ s : State, finite s.din = true → 0 ≤ val s.din → val s.din < 256 →
    ∃ t u : State, exec .encode s = .next t ∧ t.status = 0 ∧ exec .decode { t with din := t.dout } = .next u ∧
      val u.dout = (⌊4 * val s.din⌋ : ℚ) / 4 ∧
      0 ≤ val s.din - val u.dout ∧ val s.din - val u.dout < 1 / 4 ∧
      ((∃ k : ℤ, val s.din = (k : ℚ) / 4) → val u.dout = val s.din)

/-- Law 3 of the codec: for -256 < val(x) < 0 the round trip gives 256 - floor(4 |val(x)|) / 4, which is not val(x). -/
def Obligations.NegativeRoundTrip : Prop :=
  ∀ s : State, finite s.din = true → -256 < val s.din → val s.din < 0 →
    ∃ t u : State, exec .encode s = .next t ∧ t.status = 0 ∧ exec .decode { t with din := t.dout } = .next u ∧
      val u.dout = 256 - (⌊4 * |val s.din|⌋ : ℚ) / 4 ∧ val u.dout ≠ val s.din

/-- Law 4 of the codec: a sign-clear word on the 1/4 grid (bits 15:12 and 1:0 zero) comes back from DECODE then ENCODE. -/
def Obligations.SignClearWordsComeBack : Prop :=
  ∀ s : State, (s.din.extractLsb' 12 4 = 0) → (s.din.extractLsb' 0 2 = 0) →
    ∃ t u : State, exec .decode s = .next t ∧ exec .encode { t with din := t.dout } = .next u ∧
      u.status = 0 ∧ u.dout = (s.din.extractLsb' 0 16).setWidth 32

/-- Law 5 of the codec: a sign-set word on the 1/4 grid comes back as the sign-clear word 4096 - magnitude; with magnitude 0
the composition is ERR_RANGE. -/
def Obligations.SignSetWordsComeBackComplemented : Prop :=
  ∀ s : State, (s.din.extractLsb' 12 4 = 1) → (s.din.extractLsb' 0 2 = 0) →
    ∃ t u : State, exec .decode s = .next t ∧ exec .encode { t with din := t.dout } = .next u ∧
      (s.din.extractLsb' 0 12 ≠ 0 → u.status = 0 ∧ u.dout.toNat = 4096 - (s.din.extractLsb' 0 12).toNat) ∧
      (s.din.extractLsb' 0 12 = 0 → u.status = 1 ∧ u.dout = 0)

/-! ## PATCH, FGET, FSET -/

/-- R54: the field table, row by row, with the reserved ids and the relation of mask, shift and width. -/
def Obligations.FieldTableIsR54 : Prop :=
  ([0, 1, 2, 3, 4, 5, 6, 7, 8, 9].map fun n : Nat => fieldOfId (BitVec.ofNat 4 n)) =
    [some .alertOutput, some .alertPol, some .alertMode, some .alertCtrl, some .alertStatus,
     some .clearIrq, some .winLock, some .critLock, some .hyst, some .res] ∧
  (∀ fid : BitVec 4, fieldOfId fid = none ↔ 10 ≤ fid.toNat) ∧
  (∀ f : Field, fieldOfId f.fid = some f ∧ f.mask = ((1 <<< f.width) - 1) <<< f.shift ∧
    (f.access = .readOnly ↔ f = .alertStatus) ∧
    f.byte = (if f = .hyst then .configMsb else if f = .res then .resolution else .configLsb) ∧
    f.width = (if f = .hyst ∨ f = .res then 2 else 1) ∧
    f.shift = (if f = .hyst then 1 else if f = .res then 0 else f.fid.toNat))

/-- R55: PATCH's result for every mask, S and DIN, always OK; its words are 0b0011_000S_MMMMMMMM. -/
def Obligations.PatchSetsOrClearsTheMask : Prop :=
  (∀ (set : Bool) (mask : Byte) (s : State), exec (.patch set mask) s = .next { s with
      dout := (((s.din.extractLsb' 0 8) &&& ~~~mask) ||| (if set then mask else 0x00)).setWidth 32,
      status := 0 }) ∧
  (∀ (c : CmdWord) (set : Bool) (mask : Byte), decodeCmd c = .ok (.patch set mask) ↔
    c = 0x3000 ||| (if set then 0x0100 else 0) ||| mask.setWidth 16)

/-- R56: FGET's result for every field, read-only ones included, always OK; its words are 0x4000 with FID in bits 3:0. -/
def Obligations.FgetReadsTheFieldRightAligned : Prop :=
  (∀ (f : Field) (s : State), exec (.fget f) s = .next { s with
      dout := (((s.din.extractLsb' 0 8) &&& f.mask) >>> f.shift).setWidth 32,
      status := 0 }) ∧
  (∀ (c : CmdWord) (f : Field), decodeCmd c = .ok (.fget f) ↔ c = 0x4000 ||| f.fid.setWidth 16)

/-- R57: FSET's result for every writable field and every value that fits it; ERR_READ_ONLY for ALERT_STATUS with VAL 0 or 1;
ERR_ILLEGAL for VAL 2 or 3 on a 1-bit field, ALERT_STATUS included; its words are 0x5000 with VAL in bits 5:4 and FID in bits
3:0. -/
def Obligations.FsetWritesTheField : Prop :=
  (∀ (f : Field) (v : BitVec 2) (s : State), f ≠ .alertStatus → (f = .hyst ∨ f = .res ∨ v.toNat ≤ 1) →
    exec (.fset f v) s = .next { s with
      dout := (((s.din.extractLsb' 0 8) &&& ~~~f.mask) ||| ((v.setWidth 8 <<< f.shift) &&& f.mask)).setWidth 32,
      status := 0 }) ∧
  (∀ (v : BitVec 2) (s : State), v.toNat ≤ 1 →
    exec (.fset .alertStatus v) s = .next { s with dout := 0x00000000, status := 3 }) ∧
  (∀ (f : Field) (v : BitVec 2) (s : State), f ≠ .hyst → f ≠ .res → 2 ≤ v.toNat →
    exec (.fset f v) s = .next { s with dout := 0x00000000, status := 2 }) ∧
  (∀ (c : CmdWord) (f : Field) (v : BitVec 2), decodeCmd c = .ok (.fset f v) ↔
    ((f = .hyst ∨ f = .res ∨ v.toNat ≤ 1) ∧ c = 0x5000 ||| (v.setWidth 16 <<< 4) ||| f.fid.setWidth 16))

/-- For a writable 1-bit field FSET with VAL 0 or 1 is PATCH with the field's mask and S = VAL. -/
def Obligations.OneBitFsetIsPatch : Prop :=
  ∀ (f : Field) (b : Bool) (s : State), f ≠ .alertStatus → f ≠ .hyst → f ≠ .res →
    exec (.fset f (if b then 1 else 0)) s = exec (.patch b f.mask) s

/-- Laws 1, 2 and 6 of the packer: PATCH is idempotent, changes no bit outside its mask, and PATCH 0x40, 0 after PATCH 0x40, 1
gives the byte with WIN_LOCK clear and every other bit unchanged. -/
def Obligations.PatchLaws : Prop :=
  (∀ (set : Bool) (mask : Byte) (s : State), ∃ t u : State,
    exec (.patch set mask) s = .next t ∧ exec (.patch set mask) { t with din := t.dout } = .next u ∧
    u.dout = t.dout ∧ ((t.dout.extractLsb' 0 8) ^^^ (s.din.extractLsb' 0 8)) &&& ~~~mask = 0) ∧
  (∀ s : State, ∃ t u : State,
    exec (.patch true 0x40) s = .next t ∧ exec (.patch false 0x40) { t with din := t.dout } = .next u ∧
    u.dout = s.din &&& 0x000000BF)

/-- Laws 3 to 5 of the packer: FSET changes only its field; FGET after FSET gives the value set; FSET of the value FGET gives
returns the byte. They hold for the writable fields. -/
def Obligations.FsetAndFgetLaws : Prop :=
  (∀ (f : Field) (v : BitVec 2) (s : State), f ≠ .alertStatus → (Instr.fset f v).WellFormed → ∃ t u : State,
    exec (.fset f v) s = .next t ∧ t.status = 0 ∧
    ((t.dout.extractLsb' 0 8) ^^^ (s.din.extractLsb' 0 8)) &&& ~~~f.mask = 0 ∧
    exec (.fget f) { t with din := t.dout } = .next u ∧ u.dout = v.setWidth 32) ∧
  (∀ (f : Field) (s : State), f ≠ .alertStatus → ∃ t u : State,
    exec (.fget f) s = .next t ∧ exec (.fset f (t.dout.extractLsb' 0 2)) s = .next u ∧
    u.status = 0 ∧ u.dout = s.din &&& 0x000000FF)

/-! ## The controller -/

/-- 30_encoding.md section 5, table of the controller operations: the commands of each operation, CMD and DIN, in order, with
every argument; and each of them is a legal command word. The operations as a type, the DIN bits above a byte or a register
word as 0, and the byte each takes are the model's (log 13). That m, p and o are single bits is the spec's own inference: "That
m, p and o are single bits is inferred from DOC §6, which gives each a single-bit mask." -/
def Obligations.ControllerOperationsIssueTheirCommands : Prop :=
  (∀ w : RegWord, (ControllerOp.readTemperature w).commands = [⟨0x1000, 0#16 ++ w⟩]) ∧
  (∀ t : Word, (ControllerOp.setCriticalTemperature t).commands = [⟨0x2000, t⟩]) ∧
  (∀ w : RegWord, (ControllerOp.getCriticalTemperature w).commands = [⟨0x1000, 0#16 ++ w⟩]) ∧
  (∀ upper lower : Word,
    (ControllerOp.setWindowTemperature upper lower).commands = [⟨0x2000, upper⟩, ⟨0x2000, lower⟩]) ∧
  (∀ upper lower : RegWord,
    (ControllerOp.getWindowTemperature upper lower).commands = [⟨0x1000, 0#16 ++ upper⟩, ⟨0x1000, 0#16 ++ lower⟩]) ∧
  (∀ b : Byte,
    (ControllerOp.lockWindowTempReg b).commands = [⟨0x3140, 0#24 ++ b⟩] ∧
    (ControllerOp.unlockWindowTempReg b).commands = [⟨0x3040, 0#24 ++ b⟩] ∧
    (ControllerOp.lockCriticalTempReg b).commands = [⟨0x3180, 0#24 ++ b⟩] ∧
    (ControllerOp.unlockCriticalTempReg b).commands = [⟨0x3080, 0#24 ++ b⟩] ∧
    (ControllerOp.clearInterrupt b).commands = [⟨0x3120, 0#24 ++ b⟩] ∧
    (ControllerOp.isAlertAsserted b).commands = [⟨0x4004, 0#24 ++ b⟩] ∧
    (ControllerOp.enableAlert b).commands = [⟨0x3108, 0#24 ++ b⟩] ∧
    (ControllerOp.disableAlert b).commands = [⟨0x3008, 0#24 ++ b⟩]) ∧
  (∀ (bit : Bool) (b : Byte),
    (ControllerOp.setAlertMode bit b).commands = [⟨if bit then 0x3104 else 0x3004, 0#24 ++ b⟩] ∧
    (ControllerOp.setAlertPolarity bit b).commands = [⟨if bit then 0x3102 else 0x3002, 0#24 ++ b⟩] ∧
    (ControllerOp.setAlertOutput bit b).commands = [⟨if bit then 0x3101 else 0x3001, 0#24 ++ b⟩]) ∧
  (∀ b : Byte,
    (ControllerOp.getHysteresis b).commands = [⟨0x4008, 0#24 ++ b⟩] ∧
    (ControllerOp.getResolution b).commands = [⟨0x4009, 0#24 ++ b⟩]) ∧
  (∀ (v : BitVec 2) (b : Byte),
    (ControllerOp.setHysteresis v b).commands = [⟨0x5008 + 0x0010 * v.setWidth 16, 0#24 ++ b⟩] ∧
    (ControllerOp.setResolution v b).commands = [⟨0x5009 + 0x0010 * v.setWidth 16, 0#24 ++ b⟩]) ∧
  (ControllerOp.getManufactureId.commands = [] ∧ ControllerOp.getId.commands = [] ∧
    ControllerOp.initialise.commands = [] ∧ ControllerOp.setDeviceAddress.commands = []) ∧
  (∀ (op : ControllerOp) (c : Command), c ∈ op.commands → legal c.cmd = true)

/-! ## The assembler -/

/-- A value that is exactly a finite binary32 value gets that value's word, sign included (30_encoding.md section 5): from the
assembler's rounding, for every fraction equal to |val(x)|; and from ENCODE's operand `din=f` with any literal, with or without
a point, whose digits stand for |val(x)| and whose minus sign is x's. The literal's form is the model's (log 12). -/
def Obligations.ExactLiteralsAssembleToTheirWord : Prop :=
  (∀ (x : Word) (num den : Nat), finite x = true → 0 < den → (num : ℚ) / (den : ℚ) = absVal x →
    nearestFloat (sgn x) num den = x) ∧
  (∀ (x : Word) (whole : List Char) (part : Option (List Char)) (num den : Nat), finite x = true →
    literalFraction whole part = some (num, den) → (num : ℚ) / (den : ℚ) = absVal x →
    floatDin ("din=f".toList ++ literalText (sgn x) whole part) = some x)

/-- A decimal literal stands for the nearest binary32 word, ties to even (30_encoding.md section 5). The assembler's rounding
keeps the sign. Its result is finite for every fraction up to the largest finite magnitude, and exactly below the midpoint
2^128 - 2^103 between that and 2^128; from there on it is an infinity. Where it is finite no finite word's magnitude is nearer to
the fraction, and where another magnitude is equally near, the result's fraction is even. ENCODE's operand `din=f` with any
literal is that rounding of the literal's digits and minus sign. The literal's form, and where an infinity begins, are the
model's (log 12). -/
def Obligations.LiteralsAssembleToANearestWord : Prop :=
  (∀ (negative : Bool) (num den : Nat), 0 < den →
    sgn (nearestFloat negative num den) = negative ∧
    ((num : ℚ) / (den : ℚ) ≤ absVal 0x7F7FFFFF → finite (nearestFloat negative num den) = true) ∧
    (finite (nearestFloat negative num den) = true ↔ (num : ℚ) / (den : ℚ) < 2 ^ 128 - 2 ^ 103) ∧
    (finite (nearestFloat negative num den) = false →
      nearestFloat negative num den = if negative then 0xFF800000 else 0x7F800000) ∧
    (finite (nearestFloat negative num den) = true → ∀ x : Word, finite x = true →
      |absVal (nearestFloat negative num den) - (num : ℚ) / (den : ℚ)| ≤ |absVal x - (num : ℚ) / (den : ℚ)| ∧
      (|absVal (nearestFloat negative num den) - (num : ℚ) / (den : ℚ)| = |absVal x - (num : ℚ) / (den : ℚ)| →
        absVal x ≠ absVal (nearestFloat negative num den) → (nearestFloat negative num den).getLsbD 0 = false))) ∧
  (∀ (negative : Bool) (whole : List Char) (part : Option (List Char)) (num den : Nat),
    literalFraction whole part = some (num, den) →
    0 < den ∧ floatDin ("din=f".toList ++ literalText negative whole part) = some (nearestFloat negative num den))
end

