-- ==== Sys2Proof/Laws/Asm.lean ====
section
/-! SUPPORT. What the reader of decimal literals does with its characters. -/

namespace Sys2Proof.Machine

@[simp] theorem pointText_none : pointText none = [] := rfl
@[simp] theorem pointText_some (p : List Char) : pointText (some p) = '.' :: p := rfl

/-- Characters without a point are all before the point. -/
theorem splitPoint_of_no_point {l : List Char} (h : '.' ∉ l) : splitPoint l = (l, none) := by
  induction l with
  | nil => rfl
  | cons c cs ih =>
    obtain ⟨hc, hcs⟩ := not_or.mp (mt List.mem_cons.mpr h)
    simp [splitPoint, ih hcs, Ne.symm hc]

/-- The first point splits the characters. -/
theorem splitPoint_at_point {l p : List Char} (h : '.' ∉ l) : splitPoint (l ++ '.' :: p) = (l, some p) := by
  induction l with
  | nil => rfl
  | cons c cs ih =>
    obtain ⟨hc, hcs⟩ := not_or.mp (mt List.mem_cons.mpr h)
    simp [splitPoint, ih hcs, Ne.symm hc]

/-- What reads as digits is made of digits. -/
theorem digits_chars {base acc n : Nat} {l : List Char} (h : digits base acc l = some n) :
    ∀ c ∈ l, digit base c ≠ none := by
  induction l generalizing acc with
  | nil => simp
  | cons c cs ih =>
    unfold digits at h
    split at h
    · rename_i v hv
      intro d hd
      rcases List.mem_cons.mp hd with rfl | hd
      · simp [hv]
      · exact ih h d hd
    · cases h

/-- A decimal number has at least one character, and only digits: no point and no minus sign. -/
theorem decimal_chars {n : Nat} {l : List Char} (h : decimal l = some n) : l ≠ [] ∧ '.' ∉ l ∧ '-' ∉ l := by
  unfold decimal at h
  split at h
  · cases h
  · exact ⟨by assumption, fun hm => digits_chars h _ hm (by decide), fun hm => digits_chars h _ hm (by decide)⟩

end Sys2Proof.Machine
end

