-- ==== Sys2Proof/Laws/Bitfield.lean ====
section
/-! SUPPORT. What the packer's byte operations do, bit by bit. -/

namespace Sys2Proof.Machine

/-- The bits of the mask come from the new byte, every other bit is kept (R55, R57). -/
theorem mergeBits_bit (cur mask new : Byte) (i : Nat) :
    (mergeBits cur mask new).getLsbD i = if mask.getLsbD i then new.getLsbD i else cur.getLsbD i := by
  by_cases hi : i < 8
  · rw [mergeBits, BitVec.getLsbD_or, BitVec.getLsbD_and, BitVec.getLsbD_and, BitVec.getLsbD_not]
    cases mask.getLsbD i <;> simp [hi]
  · have hn : ∀ b : Byte, b.getLsbD i = false := fun b => BitVec.getLsbD_of_ge b i (by omega)
    simp [hn]

/-- Merging never changes a bit outside the mask (R58, laws 2 and 3). -/
theorem mergeBits_outside (cur mask new : Byte) : (mergeBits cur mask new ^^^ cur) &&& ~~~mask = 0 := by
  ext i hi
  have := mergeBits_bit cur mask new i
  cases h : mask.getLsbD i <;> simp_all [← BitVec.getLsbD_eq_getElem]

/-- Merging the same bits twice is merging them once. -/
theorem mergeBits_idem (cur mask new : Byte) :
    mergeBits (mergeBits cur mask new) mask new = mergeBits cur mask new := by
  ext i hi
  simp only [← BitVec.getLsbD_eq_getElem, mergeBits_bit]
  split <;> rfl

/-- A bit of PATCH's byte (R55). -/
theorem patchByte_bit (set : Bool) (mask cur : Byte) (i : Nat) :
    (patchByte set mask cur).getLsbD i = if mask.getLsbD i then set else cur.getLsbD i := by
  rw [patchByte, mergeBits_bit]
  cases set <;> cases h : mask.getLsbD i <;> simp [h]

end Sys2Proof.Machine
end

