-- ==== Sys2Proof/Laws/Codec.lean ====
section
/-! SUPPORT. What the codec's helpers compute, as arithmetic on naturals. -/

namespace Sys2Proof.Machine

/-- A magnitude is below 4096 sixteenths, that is 256 (R15). -/
theorem magnitude_lt (w : RegWord) : magnitude w < 4096 := (w.extractLsb' 0 12).isLt

/-- `dec16` is from 0 to 4096 (R44). -/
theorem dec16_le (w : RegWord) : dec16 w ≤ 4096 := by
  have := magnitude_lt w
  unfold dec16
  split <;> omega

/-- `highestBit` finds the highest 1 bit of a non-zero number that has no bit above `k`. -/
theorem highestBit_bounds (k v : Nat) (h0 : v ≠ 0) (h : v < 2 ^ (k + 1)) :
    2 ^ highestBit k v ≤ v ∧ v < 2 ^ (highestBit k v + 1) ∧ highestBit k v ≤ k := by
  induction k with
  | zero => simp [highestBit] at *; omega
  | succ k ih =>
    by_cases hb : v.testBit (k + 1) = true
    · simp only [highestBit, hb, if_true]
      exact ⟨Nat.ge_two_pow_of_testBit hb, h, le_refl _⟩
    · have hlt : v < 2 ^ (k + 1) := by
        refine Nat.lt_of_testBit (k + 1) (by simpa using hb) (Nat.testBit_two_pow_self) ?_
        intro j hj
        rw [Nat.testBit_lt_two_pow (lt_of_lt_of_le h (Nat.pow_le_pow_right (by norm_num) hj)),
          Nat.testBit_two_pow_of_ne (by omega)]
      simp only [highestBit, hb]
      obtain ⟨h1, h2, h3⟩ := ih hlt
      exact ⟨h1, h2, by simp only [Bool.false_eq_true, if_false]; omega⟩

/-- The number of a word with a clear sign bit, from its fields. -/
theorem positive_word_toNat (e : BitVec 8) (f : BitVec 23) :
    (0#1 ++ e ++ f : BitVec (1 + 8 + 23)).toNat = e.toNat * 2 ^ 23 + f.toNat := by
  rw [BitVec.toNat_append, BitVec.toNat_append, ← Nat.shiftLeft_add_eq_or_of_lt f.isLt]
  simp [Nat.shiftLeft_eq]

/-- `sgn`, `bexp` and `frac` as arithmetic on the word's number (R8). -/
theorem sgn_eq (x : Word) : sgn x = decide (2 ^ 31 ≤ x.toNat) := by
  have := BitVec.msb_eq_decide x
  rwa [BitVec.msb_eq_getLsbD_last] at this

theorem bexp_eq (x : Word) : bexp x = x.toNat / 2 ^ 23 % 256 := by
  simp [bexp, Nat.shiftRight_eq_div_pow]

theorem frac_eq (x : Word) : (frac x).toNat = x.toNat % 2 ^ 23 := by
  simp [frac]

/-- A binary32 word is its three fields (R8). -/
theorem word_toNat (x : Word) :
    x.toNat = (if sgn x then 2 ^ 31 else 0) + bexp x * 2 ^ 23 + (frac x).toNat := by
  have := x.isLt
  rw [sgn_eq, bexp_eq, frac_eq]
  simp only [decide_eq_true_eq]
  split <;> omega

/-- The fields of the word `f32Of16` builds from a non-zero number of sixteenths (R45). -/
theorem f32Of16_fields {v : Nat} (h0 : v ≠ 0) (h : v ≤ 4096) :
    sgn (f32Of16 v) = false ∧ bexp (f32Of16 v) = highestBit 12 v + 123 ∧
    (frac (f32Of16 v)).toNat = (v - 2 ^ highestBit 12 v) * 2 ^ (23 - highestBit 12 v) := by
  obtain ⟨h1, h2, h3⟩ := highestBit_bounds 12 v h0 (by omega)
  generalize hp : highestBit 12 v = p at *
  have hpow : (2 : Nat) ^ 23 = 2 ^ p * 2 ^ (23 - p) := by rw [← pow_add]; congr 1; omega
  have hv : v * 2 ^ (23 - p) = 2 ^ 23 + (v - 2 ^ p) * 2 ^ (23 - p) := by
    rw [hpow, ← Nat.add_mul]; congr 1; omega
  have hlt : (v - 2 ^ p) * 2 ^ (23 - p) < 2 ^ 23 := by
    rw [hpow]
    apply Nat.mul_lt_mul_of_pos_right _ (by positivity)
    rw [pow_succ] at h2; omega
  have hn : (f32Of16 v).toNat = (p + 123) * 2 ^ 23 + (v - 2 ^ p) * 2 ^ (23 - p) := by
    have hf : f32Of16 v = 0#1 ++ BitVec.ofNat 8 (p + 123) ++ BitVec.ofNat 23 (v <<< (23 - p)) := by
      simp [f32Of16, h0, hp]
    rw [hf, positive_word_toNat, BitVec.toNat_ofNat, BitVec.toNat_ofNat, Nat.shiftLeft_eq, hv,
      Nat.add_mod_left, Nat.mod_eq_of_lt hlt, Nat.mod_eq_of_lt (by omega)]
  refine ⟨?_, ?_, ?_⟩
  · rw [sgn_eq, hn]; simp; omega
  · rw [bexp_eq, hn]; omega
  · rw [frac_eq, hn]; omega

theorem bexp_lt (x : Word) : bexp x < 256 := (x.extractLsb' 23 8).isLt

theorem frac_lt (x : Word) : (frac x).toNat < 2 ^ 23 := (frac x).isLt

/-- ENCODE's shifted mantissa as a quotient; the clamp for a shift of 24 or more agrees with it (R48). -/
theorem quarters_toNat (x : Word) :
    (quarters x).toNat = (2 ^ 23 + (frac x).toNat) / 2 ^ encodeShift x := by
  have hf := frac_lt x
  unfold quarters
  split
  · rename_i h
    have : (2 : Nat) ^ 24 ≤ 2 ^ encodeShift x := Nat.pow_le_pow_right (by norm_num) h
    rw [Nat.div_eq_of_lt (by omega)]
    rfl
  · rw [BitVec.toNat_ushiftRight, BitVec.toNat_append, Nat.shiftRight_eq_div_pow]
    congr 1
    rw [← Nat.shiftLeft_add_eq_or_of_lt (frac x).isLt]
    simp [Nat.shiftLeft_eq]

/-- In range the quarters fit 10 bits, so the mask to 12 bits discards nothing (R52). -/
theorem quarters_lt (x : Word) (h : bexp x ≤ 134) : (quarters x).toNat < 1024 := by
  rw [quarters_toNat]
  have hf := frac_lt x
  have : (2 : Nat) ^ 14 ≤ 2 ^ encodeShift x := Nat.pow_le_pow_right (by norm_num) (by unfold encodeShift; omega)
  rw [Nat.div_lt_iff_lt_mul (by positivity)]
  omega

/-- In range the magnitude field is four times the quarters (R48). -/
theorem mag12_toNat (x : Word) (h : bexp x ≤ 134) : (mag12 x).toNat = 4 * (quarters x).toNat := by
  have := quarters_lt x h
  simp [mag12, Nat.shiftLeft_eq]
  omega

end Sys2Proof.Machine
end

