-- ==== Sys2Proof/Laws/Decode.lean ====
section
/-! SUPPORT. The small lemmas of the decoder's parts. -/

namespace Sys2Proof

/-- A field's id names that field. -/
@[simp] theorem fieldOfId_fid (f : Field) : fieldOfId f.fid = some f := by
  cases f <;> rfl

/-- An id that names a field is that field's id. -/
theorem fid_of_fieldOfId {fid : BitVec 4} {f : Field} (h : fieldOfId fid = some f) : f.fid = fid := by
  revert h
  revert fid
  cases f <;> decide

/-- The reserved ids are 10 to 15 (R54). -/
theorem fieldOfId_eq_none (fid : BitVec 4) : fieldOfId fid = none ↔ 10 ≤ fid.toNat := by
  revert fid
  decide

/-- A 1-bit field admits 0 and 1, HYST and RES every VAL (R37). -/
theorem admits_iff (f : Field) (v : BitVec 2) :
    f.admits v = true ↔ (f = .hyst ∨ f = .res ∨ v.toNat ≤ 1) := by
  revert v
  cases f <;> decide

/-- The one read-only field (R54). -/
theorem access_readOnly_iff (f : Field) : f.access = .readOnly ↔ f = .alertStatus := by
  cases f <;> decide

theorem decodeFget_ok {fid : BitVec 4} {i : Instr} (h : decodeFget fid = .ok i) :
    ∃ f : Field, f.fid = fid ∧ i = .fget f := by
  unfold decodeFget at h
  split at h
  · rename_i f hf
    exact ⟨f, fid_of_fieldOfId hf, by simpa using h.symm⟩
  · cases h

theorem decodeFset_ok {fid : BitVec 4} {v : BitVec 2} {i : Instr} (h : decodeFset fid v = .ok i) :
    ∃ f : Field, f.fid = fid ∧ f.admits v = true ∧ i = .fset f v := by
  unfold decodeFset at h
  split at h
  · rename_i f hf
    split at h
    · rename_i ha
      exact ⟨f, fid_of_fieldOfId hf, ha, by simpa using h.symm⟩
    · cases h
  · cases h

end Sys2Proof
end

