-- ==== Sys2Proof/Laws/State.lean ====
section
/-! SUPPORT. One lemma per field for every update of State: later proofs never unfold a record update. -/

namespace Sys2Proof.Machine

variable (s : State) (v d : Word) (c : StatusWord) (rest : List Slot) (k : Command)

@[simp] theorem complete_dout : (s.complete v c).dout = v := rfl
@[simp] theorem complete_status : (s.complete v c).status = c := rfl
@[simp] theorem complete_din : (s.complete v c).din = s.din := rfl
@[simp] theorem complete_host : (s.complete v c).host = s.host := rfl

@[simp] theorem nextSlot_dout : (s.nextSlot rest).dout = s.dout := rfl
@[simp] theorem nextSlot_status : (s.nextSlot rest).status = s.status := rfl
@[simp] theorem nextSlot_din : (s.nextSlot rest).din = s.din := rfl
@[simp] theorem nextSlot_host : (s.nextSlot rest).host = rest := rfl

@[simp] theorem sample_dout : (s.sample d).dout = s.dout := rfl
@[simp] theorem sample_status : (s.sample d).status = s.status := rfl
@[simp] theorem sample_din : (s.sample d).din = d := rfl
@[simp] theorem sample_host : (s.sample d).host = s.host := rfl

@[simp] theorem issueNext_dout : (s.issueNext k).dout = s.dout := rfl
@[simp] theorem issueNext_status : (s.issueNext k).status = s.status := rfl
@[simp] theorem issueNext_din : (s.issueNext k).din = s.din := rfl
@[simp] theorem issueNext_host : (s.issueNext k).host = issue k :: s.host := rfl

@[simp] theorem resetBlock_dout : (resetBlock s).dout = 0 := rfl
@[simp] theorem resetBlock_status : (resetBlock s).status = 0 := rfl
@[simp] theorem resetBlock_din : (resetBlock s).din = s.din := rfl
@[simp] theorem resetBlock_host : (resetBlock s).host = s.host := rfl

end Sys2Proof.Machine
end

