-- ==== Sys2Proof/Laws/Ops.lean ====
section
/-! SUPPORT. What each shared operation can do, said once: completing, raising, and taking the host's next slot. -/

namespace Sys2Proof.Machine

variable {s t : State}

/-- A success answers exactly one next state. -/
theorem succeed_next (v : Word) : succeed v s = .next t ↔ t = s.complete v 0 := by
  simp [succeed, statusOk, eq_comm]

/-- An error answers exactly one next state: DOUT zero and the error's code. -/
theorem raise_next (e : Error) : raise e s = .next t ↔ t = s.complete 0 e.code := by
  simp [raise, eq_comm]

/-- An error's code is never OK. -/
theorem error_code_ne_ok (e : Error) : e.code ≠ 0 := by
  cases e <;> decide

theorem nextEvent_nil (h : s.host = []) : nextEvent s = .idle s := by
  simp [nextEvent, h]

theorem nextEvent_conflict {slot : Slot} {rest : List Slot} (h : s.host = slot :: rest)
    (hc : 2 ≤ slot.issued.length) : nextEvent s = .conflict := by
  have : Config.agents < slot.issued.length := hc
  simp [nextEvent, h, this]

theorem nextEvent_reset {issued : List Command} {rest : List Slot}
    (h : s.host = { rst := true, issued := issued } :: rest) (hc : issued.length ≤ 1) :
    nextEvent s = .reset (s.nextSlot rest) := by
  have : ¬ Config.agents < issued.length := Nat.not_lt.mpr hc
  simp [nextEvent, h, this]

theorem nextEvent_empty {rest : List Slot} (h : s.host = { rst := false, issued := [] } :: rest) :
    nextEvent s = .idle (s.nextSlot rest) := by
  simp [nextEvent, h]

theorem nextEvent_issue {c : Command} {rest : List Slot} (h : s.host = issue c :: rest) :
    nextEvent s = .command c.cmd ((s.nextSlot rest).sample c.din) := by
  simp [nextEvent, h, issue, Config.agents]

/-- The five things a next slot can ask, each with the shape of the host's list that asks it. -/
theorem nextEvent_cases (s : State) :
    (s.host = [] ∧ nextEvent s = .idle s) ∨
    (∃ slot rest, s.host = slot :: rest ∧ 2 ≤ slot.issued.length ∧ nextEvent s = .conflict) ∨
    (∃ issued rest, s.host = { rst := true, issued := issued } :: rest ∧ issued.length ≤ 1 ∧
      nextEvent s = .reset (s.nextSlot rest)) ∨
    (∃ rest, s.host = { rst := false, issued := [] } :: rest ∧ nextEvent s = .idle (s.nextSlot rest)) ∨
    (∃ c rest, s.host = issue c :: rest ∧
      nextEvent s = .command c.cmd ((s.nextSlot rest).sample c.din)) := by
  rcases h : s.host with _ | ⟨⟨rst, issued⟩, rest⟩
  · exact .inl ⟨rfl, nextEvent_nil h⟩
  by_cases hc : 2 ≤ issued.length
  · exact .inr (.inl ⟨_, _, rfl, hc, nextEvent_conflict h hc⟩)
  refine .inr (.inr ?_)
  cases rst with
  | true => exact .inl ⟨issued, rest, rfl, by omega, nextEvent_reset h (by omega)⟩
  | false =>
    match issued, hc with
    | [], _ => exact .inr (.inl ⟨rest, rfl, nextEvent_empty h⟩)
    | [c], _ => exact .inr (.inr ⟨c, rest, rfl, nextEvent_issue h⟩)
    | _ :: _ :: _, hc => exact absurd (by simp) hc

end Sys2Proof.Machine
end

