-- ==== Sys2Proof/Laws/PerInstr.lean ====
section
/-! SUPPORT. The family `MatchesItsRow`: an instruction's word matches its own row of R36's operation map. -/

namespace Sys2Proof.Laws

/-- The word of `i` matches `i`'s row: `(CMD & mask) == match` (R36). -/
def MatchesItsRow.Statement (i : Instr) : Prop :=
  encode i &&& (opcodeRow i).maskWord = (opcodeRow i).matchWord

theorem MatchesItsRow.decode : MatchesItsRow.Statement .decode := by
  unfold MatchesItsRow.Statement; decide

theorem MatchesItsRow.encode : MatchesItsRow.Statement .encode := by
  unfold MatchesItsRow.Statement; decide

theorem MatchesItsRow.patch (set : Bool) (mask : Byte) : MatchesItsRow.Statement (.patch set mask) := by
  unfold MatchesItsRow.Statement
  cases set <;> revert mask <;> decide +revert

theorem MatchesItsRow.fget (f : Field) : MatchesItsRow.Statement (.fget f) := by
  unfold MatchesItsRow.Statement
  cases f <;> decide

theorem MatchesItsRow.fset (f : Field) (v : BitVec 2) : MatchesItsRow.Statement (.fset f v) := by
  unfold MatchesItsRow.Statement
  revert v
  cases f <;> decide

end Sys2Proof.Laws
end

