-- ==== Sys2Proof/Tests/Slice0.lean ====
section
/-! SUPPORT. The model's own tests. Expected results come from spec/ (95_test_vectors.md, or a rule's own example); the
witnesses show that each statement's hypotheses can be met. -/

namespace Sys2Proof.Tests

open Sys2Proof.Machine

/-- A state whose DIN port holds `d`; DOUT and STATUS hold an earlier command's leavings. -/
def withDin (d : Word) : State := { dout := 0x437AC000, status := 3, din := d, host := [] }

/-- A state whose host issues one command next. -/
def issuing (c : CmdWord) (d : Word) : State := (withDin 0).issueNext { cmd := c, din := d }

/-- The block's DOUT and STATUS after an outcome, where there is a next state. -/
def resultOf : Outcome → Option (Word × StatusWord)
  | .next t => some t.result
  | _ => none

/-! ## WellFormed: the one check refuses an ill-formed term -/

theorem test_wellFormed_refuses_wide_value : (Instr.fset .winLock 2).wellFormed = false := by decide
theorem test_wellFormed_refuses_wide_value_readOnly : (Instr.fset .alertStatus 3).wellFormed = false := by decide
theorem test_wellFormed_accepts_two_bit_value : (Instr.fset .hyst 3).wellFormed = true := by decide

/-! ## Decoding: words written out from R33's layouts -/

theorem test_decode_word_decode : decodeCmd 0b0001_0000_0000_0000 = .ok .decode := by decide
theorem test_decode_word_encode : decodeCmd 0b0010_0000_0000_0000 = .ok .encode := by decide
theorem test_decode_word_patch : decodeCmd 0b0011_0001_1010_0101 = .ok (.patch true 0xA5) := by decide
theorem test_decode_word_patch_clear : decodeCmd 0b0011_0000_0100_0000 = .ok (.patch false 0x40) := by decide
theorem test_decode_word_fget : decodeCmd 0b0100_0000_0000_1001 = .ok (.fget .res) := by decide
theorem test_decode_word_fset : decodeCmd 0b0101_0000_0010_1000 = .ok (.fset .hyst 2) := by decide

/-- 95_test_vectors.md L2.6 and L2.5: rejections, each by its name. -/
theorem test_decode_rejects_zero_word : decodeCmd 0x0000 = .error .reservedOp := by decide
theorem test_decode_rejects_op15 : decodeCmd 0xFFFF = .error .reservedOp := by decide
theorem test_decode_rejects_reserved_bits :
    [0x1001, 0x1800, 0x2001, 0x3200, 0x3E00, 0x4010, 0x5040].map decodeCmd =
      List.replicate 7 (.error .reservedBits) := by decide
theorem test_decode_rejects_reserved_field : decodeCmd 0x501A = .error .reservedField := by decide
theorem test_decode_rejects_wide_value : decodeCmd 0x5024 = .error .valueTooWide := by decide

/-- The table's numbering of bits: a row has 16 bits, and no command is longer. -/
theorem test_decodeTableWord : decodeTableWord 16 0x5038 = some (.fset .hyst 3) := by decide
theorem test_decodeTableWord_long : decodeTableWord 32 0x5038 = none := by decide

/-! ## One step per test: 95_test_vectors.md L2.1 to L2.5 -/

theorem test_DECODE_flags_ignored : resultOf (step (issuing 0x1000 0xABCDE190)) = some (0x41C80000, 0) := by decide
theorem test_DECODE_sign_set_zero : resultOf (step (issuing 0x1000 0x00001000)) = some (0x43800000, 0) := by decide
theorem test_ENCODE_negative_subnormal : resultOf (step (issuing 0x2000 0x800116C2)) = some (0x00001000, 0) := by decide
theorem test_ENCODE_256_out_of_range : resultOf (step (issuing 0x2000 0x43800000)) = some (0x00000000, 1) := by decide
theorem test_PATCH_din_high_ignored : resultOf (step (issuing 0x3180 0xFFFFFF00)) = some (0x00000080, 0) := by decide
theorem test_PATCH_clear_two_bits : resultOf (step (issuing 0x3006 0x00000007)) = some (0x00000001, 0) := by decide
theorem test_FGET_hyst : resultOf (step (issuing 0x4008 0x00000004)) = some (0x00000002, 0) := by decide
theorem test_FGET_alertStatus_clear : resultOf (step (issuing 0x4004 0x000000EF)) = some (0x00000000, 0) := by decide
theorem test_FSET_hyst : resultOf (step (issuing 0x5028 0x00000007)) = some (0x00000005, 0) := by decide
theorem test_FSET_readOnly : resultOf (step (issuing 0x5014 0x00000000)) = some (0x00000000, 3) := by decide

/-- L2.5: illegal beats read-only. -/
theorem test_illegal_beats_readOnly : resultOf (step (issuing 0x5024 0x00000000)) = some (0x00000000, 2) := by decide

/-- L2.7: RST clears DOUT and STATUS, and the command issued with it leaves no trace (R68). -/
theorem test_reset_drops_the_command :
    step { withDin 7 with host := [{ rst := true, issued := [{ cmd := 0x31FF, din := 1 }] }] } =
      .next { dout := 0, status := 0, din := 7, host := [] } := by rfl

/-- R66: two commands at once are refused. -/
theorem test_two_hosts_refused :
    step { withDin 0 with host := [{ rst := false, issued := [⟨0x1000, 0⟩, ⟨0x1000, 1⟩] }] } =
      .refused .concurrentHosts := by rfl

/-! ## The assembler: lines of 95_test_vectors.md -/

theorem test_asm_patch : assemble "PATCH WIN_LOCK, 1  din=0x08 ; P2 line 1" = some ⟨0x3140, 0x08⟩ := by decide
theorem test_asm_fset : assemble "FSET HYST, 2 din=0x00" = some ⟨0x5028, 0x00⟩ := by decide
theorem test_asm_clrf : assemble "CLRF WIN_LOCK din=0x48" = some ⟨0x3040, 0x48⟩ := by decide
theorem test_asm_literal : assemble "ENCODE din=f-5.25" = some ⟨0x2000, 0xC0A80000⟩ := by decide
theorem test_asm_literal_rounded : assemble "ENCODE din=f-0.1" = some ⟨0x2000, 0xBDCCCCCD⟩ := by decide
theorem test_asm_reserved_fid : assemble "FGET 10 din=0xFF" = none := by decide

/-! ## The controller's mapping (R43) -/

theorem test_controller_lockWindow :
    (ControllerOp.lockWindowTempReg 0x08).commands = [⟨0x3140, 0x00000008⟩] := by decide

/-! ## Values of binary32 words used by the witnesses -/

theorem val_255_75 : val 0x437FC000 = 255.75 := by
  have hs : sgn 0x437FC000 = false := by decide
  have hb : bexp 0x437FC000 = 134 := by decide
  have hf : (frac 0x437FC000).toNat = 0x7FC000 := by decide
  simp only [val, absVal, absUnits, hs, hb, hf]
  norm_num

theorem absVal_255_75 : absVal 0x437FC000 = 255.75 := by
  have hb : bexp 0x437FC000 = 134 := by decide
  have hf : (frac 0x437FC000).toNat = 0x7FC000 := by decide
  simp only [absVal, absUnits, hb, hf]
  norm_num

theorem val_neg_255_75 : val 0xC37FC000 = -255.75 := by
  have hs : sgn 0xC37FC000 = true := by decide
  have hb : bexp 0xC37FC000 = 134 := by decide
  have hf : (frac 0xC37FC000).toNat = 0x7FC000 := by decide
  simp only [val, absVal, absUnits, hs, hb, hf]
  norm_num

/-- -0.0 has the value 0. -/
theorem val_neg_zero : val 0x80000000 = 0 := by
  have hs : sgn 0x80000000 = true := by decide
  have hb : bexp 0x80000000 = 0 := by decide
  have hf : (frac 0x80000000).toNat = 0 := by decide
  simp only [val, absVal, absUnits, hs, hb, hf]
  norm_num

/-! ## Witnesses: the hypotheses of each statement can be met -/

theorem witness_DecodingTheEncoding_wide : (Instr.fset .res 3).WellFormed := by decide
theorem witness_DecodingTheEncoding_narrow : (Instr.fset .critLock 1).WellFormed := by decide
theorem witness_EncodingTheDecoded : decodeCmd 0x5039 = .ok (.fset .res 3) := by decide
theorem witness_LegalWords_legal : decodeCmd 0x31FF = .ok (.patch true 0xFF) := by decide
theorem witness_LegalWords_illegal : ∀ i, decodeCmd 0x400A ≠ .ok i := by
  intro i h
  have hd : decodeCmd 0x400A = .error .reservedField := by decide
  rw [hd] at h
  cases h
theorem witness_IllegalCommands : legal 0x400A = false := by decide
theorem witness_StepRuns : (issuing 0x4009 3).host = { rst := false, issued := [{ cmd := 0x4009, din := 3 }] } :: []
    ∧ decodeCmd 0x4009 = .ok (.fget .res) := by decide
theorem witness_FetchWord : (Instr.fset .hyst 3).WellFormed := by decide
theorem witness_Reset_empty : { withDin 0 with host := [{ rst := true, issued := [] }] }.host =
    { rst := true, issued := [] } :: [] ∧ ([] : List Command).length ≤ 1 := by decide
theorem witness_Reset_command : { withDin 0 with host := [{ rst := true, issued := [⟨0, 0⟩] }] }.host =
    { rst := true, issued := [⟨0, 0⟩] } :: [] ∧ [(⟨0, 0⟩ : Command)].length ≤ 1 := by decide
theorem witness_Idle_end : (withDin 0).host = [] := rfl
theorem witness_Idle_slot : { withDin 0 with host := [{ rst := false, issued := [] }] }.host =
    { rst := false, issued := [] } :: [] := rfl
theorem witness_OnlyCommandsAndReset_command :
    step (issuing 0x1000 0x0190) =
      .next { dout := 0x41C80000, status := 0, din := 0x0190, host := [] } ∧
    State.result { dout := 0x41C80000, status := 0, din := 0x0190, host := [] } ≠ (issuing 0x1000 0x0190).result := by
  exact ⟨by rfl, by decide⟩
theorem witness_OnlyCommandsAndReset_reset :
    step { withDin 0 with host := [{ rst := true, issued := [] }] } = .next State.reset ∧
    State.reset.result ≠ (withDin 0).result := by
  exact ⟨by rfl, by decide⟩
theorem witness_OnlyConcurrentHosts :
    { withDin 0 with host := [{ rst := true, issued := [⟨0x1000, 0⟩, ⟨0x1000, 1⟩] }] }.host =
      { rst := true, issued := [⟨0x1000, 0⟩, ⟨0x1000, 1⟩] } :: [] ∧
    2 ≤ [(⟨0x1000, 0⟩ : Command), ⟨0x1000, 1⟩].length := by decide
theorem witness_RunShows : { withDin 0 with host := [issue ⟨0x2000, 0⟩, issue ⟨0x0000, 5⟩] }.host =
    [(⟨0x2000, 0⟩ : Command), ⟨0x0000, 5⟩].map issue ++ [] := rfl
theorem witness_RunShows_none : (withDin 0).host = ([] : List Command).map issue ++ [] := rfl
theorem witness_SingleHost :
    State.SingleHost { withDin 0 with host := [issue ⟨0x1000, 0⟩, { rst := true, issued := [⟨0, 0⟩] }] } := by decide
theorem witness_StepKeeps : State.reset.ErrorMeansZero ∧
    step ({ State.reset with dout := 7 }.issueNext ⟨0x0000, 1⟩) = .next { State.reset with status := 2, din := 1 } ∧
    ({ State.reset with dout := 7 }.issueNext ⟨0x0000, 1⟩).ErrorMeansZero := by
  exact ⟨by decide, by rfl, by decide⟩
theorem witness_CommandsSeeNoEarlierState :
    (withDin 5).din = { State.reset with din := 5 }.din ∧ withDin 5 ≠ { State.reset with din := 5 } := by decide
theorem witness_UnreadDin : (withDin 0xFFFF0190).din &&& dinRead .decode = (withDin 0x00000190).din &&& dinRead .decode ∧
    withDin 0xFFFF0190 ≠ withDin 0x00000190 := by decide
theorem witness_UnreadDin_byte :
    (withDin 0xFFFFFF01).din &&& dinRead (.fset .hyst 3) = (withDin 0x00000001).din &&& dinRead (.fset .hyst 3) := by decide
theorem witness_DecodeRange_clear : (withDin 0x0FFF).din.getLsbD 12 = false := by decide
theorem witness_DecodeRange_set : (withDin 0x1000).din.getLsbD 12 = true := by decide
theorem witness_FloatOfSixteenths_one : 1 ≤ 4096 ∧ 2 ^ 0 ≤ 1 ∧ 1 < 2 ^ (0 + 1) := by decide
theorem witness_FloatOfSixteenths_4096 : 4096 ≤ 4096 ∧ 2 ^ 12 ≤ 4096 ∧ 4096 < 2 ^ (12 + 1) := by decide
theorem witness_Encode_in_range : ((withDin 0x437FFFFF).din.extractLsb' 23 8).toNat < 135 := by decide
theorem witness_Encode_out_of_range : 135 ≤ ((withDin 0x43800000).din.extractLsb' 23 8).toNat := by decide
theorem witness_Neg_zero : ¬ (bexp 0x80000000 = 255 ∧ frac 0x80000000 ≠ 0) := by decide
theorem witness_Neg_infinity : ¬ (bexp 0xFF800000 = 255 ∧ frac 0xFF800000 ≠ 0) := by decide
theorem witness_EncodeTruncates : finite (withDin 0xC37FC000).din = true ∧ |val (withDin 0xC37FC000).din| < 256 := by
  refine ⟨by decide, ?_⟩
  rw [show (withDin 0xC37FC000).din = 0xC37FC000 from rfl, val_neg_255_75]
  norm_num
theorem witness_NonNegative_top : finite (withDin 0x437FC000).din = true ∧ 0 ≤ val (withDin 0x437FC000).din ∧
    val (withDin 0x437FC000).din < 256 := by
  refine ⟨by decide, ?_⟩
  rw [show (withDin 0x437FC000).din = 0x437FC000 from rfl, val_255_75]
  norm_num
theorem witness_NonNegative_multiple : ∃ k : ℤ, val (withDin 0x437FC000).din = (k : ℚ) / 4 := by
  refine ⟨1023, ?_⟩
  rw [show (withDin 0x437FC000).din = 0x437FC000 from rfl, val_255_75]
  norm_num
theorem witness_NonNegative_neg_zero : finite (withDin 0x80000000).din = true ∧ 0 ≤ val (withDin 0x80000000).din ∧
    val (withDin 0x80000000).din < 256 := by
  refine ⟨by decide, ?_⟩
  rw [show (withDin 0x80000000).din = 0x80000000 from rfl, val_neg_zero]
  norm_num
theorem witness_Negative : finite (withDin 0xC37FC000).din = true ∧ -256 < val (withDin 0xC37FC000).din ∧
    val (withDin 0xC37FC000).din < 0 := by
  refine ⟨by decide, ?_⟩
  rw [show (withDin 0xC37FC000).din = 0xC37FC000 from rfl, val_neg_255_75]
  norm_num
theorem witness_SignClear : (withDin 0x0FFC).din.extractLsb' 12 4 = 0 ∧ (withDin 0x0FFC).din.extractLsb' 0 2 = 0 := by decide
theorem witness_SignSet : (withDin 0x1FFC).din.extractLsb' 12 4 = 1 ∧ (withDin 0x1FFC).din.extractLsb' 0 2 = 0 ∧
    (withDin 0x1FFC).din.extractLsb' 0 12 ≠ 0 := by decide
theorem witness_SignSet_zero : (withDin 0x1000).din.extractLsb' 12 4 = 1 ∧ (withDin 0x1000).din.extractLsb' 0 2 = 0 ∧
    (withDin 0x1000).din.extractLsb' 0 12 = 0 := by decide
theorem witness_Fset_two_bits : Field.hyst ≠ .alertStatus ∧
    (Field.hyst = .hyst ∨ Field.hyst = .res ∨ (3#2).toNat ≤ 1) := by decide
theorem witness_Fset_one_bit : Field.winLock ≠ .alertStatus ∧
    (Field.winLock = .hyst ∨ Field.winLock = .res ∨ (1#2).toNat ≤ 1) := by decide
theorem witness_Fset_readOnly : (1#2).toNat ≤ 1 := by decide
theorem witness_Fset_illegal : Field.alertStatus ≠ .hyst ∧ Field.alertStatus ≠ .res ∧ 2 ≤ (2#2).toNat := by decide
theorem witness_OneBit : Field.critLock ≠ .alertStatus ∧ Field.critLock ≠ .hyst ∧ Field.critLock ≠ .res := by decide
theorem witness_FsetLaws : Field.res ≠ .alertStatus ∧ (Instr.fset .res 3).WellFormed := by decide
theorem witness_Controller : (⟨0x5038, 1⟩ : Command) ∈ (ControllerOp.setHysteresis 3 1).commands := by decide
/-- 255.75 as a fraction and as a literal of 95_test_vectors.md. -/
theorem witness_ExactLiterals_fraction : finite 0x437FC000 = true ∧ 0 < 40 ∧ ((10230 : ℕ) : ℚ) / ((40 : ℕ) : ℚ) = absVal 0x437FC000 := by
  refine ⟨by decide, by decide, ?_⟩
  rw [absVal_255_75]
  norm_num
theorem witness_ExactLiterals_literal : finite 0x437FC000 = true ∧
    literalFraction "255".toList (some "75".toList) = some (25575, 100) ∧
    ((25575 : ℕ) : ℚ) / ((100 : ℕ) : ℚ) = absVal 0x437FC000 := by
  refine ⟨by decide, by decide, ?_⟩
  rw [absVal_255_75]
  norm_num
theorem witness_NearestLiterals : 0 < 10 ∧ finite 0x3DCCCCCD = true ∧ finite (nearestFloat false 1 10) = true := by decide
theorem witness_NearestLiterals_literal : literalFraction "0".toList (some "1".toList) = some (1, 10) := by decide
theorem witness_NearestLiterals_no_point : literalFraction "256".toList none = some (256, 1) := by decide

/-- The largest finite magnitude is 2^128 - 2^104, and it is met by itself: the boundary of the finite results. -/
theorem absVal_largest : absVal 0x7F7FFFFF = 2 ^ 128 - 2 ^ 104 := by
  have hb : bexp 0x7F7FFFFF = 254 := by decide
  have hf : (frac 0x7F7FFFFF).toNat = 0x7FFFFF := by decide
  simp only [absVal, absUnits, hb, hf]
  norm_num
theorem witness_NearestLiterals_largest : 0 < 1 ∧
    ((2 ^ 128 - 2 ^ 104 : ℕ) : ℚ) / ((1 : ℕ) : ℚ) ≤ absVal 0x7F7FFFFF ∧
    nearestFloat true (2 ^ 128 - 2 ^ 104) 1 = 0xFF7FFFFF ∧ finite 0xFF7FFFFF = true := by
  refine ⟨by decide, ?_, by decide, by decide⟩
  rw [absVal_largest]
  norm_num
/-- Just below the midpoint to 2^128 the largest finite word, at the midpoint an infinity. -/
theorem witness_NearestLiterals_midpoint :
    nearestFloat false (2 * (2 ^ 128 - 2 ^ 103) - 1) 2 = 0x7F7FFFFF ∧
    ((2 * (2 ^ 128 - 2 ^ 103) - 1 : ℕ) : ℚ) / ((2 : ℕ) : ℚ) < 2 ^ 128 - 2 ^ 103 ∧
    nearestFloat false (2 ^ 128 - 2 ^ 103) 1 = 0x7F800000 ∧ finite (nearestFloat false (2 ^ 128 - 2 ^ 103) 1) = false := by
  refine ⟨by decide, by norm_num, by decide, by decide⟩

/-- A tie, 1 + 2^-24: the words 0x3F800000 and 0x3F800001 are equally near, and the even one is taken (R41). -/
theorem test_asm_tie_to_even : nearestFloat true (2 ^ 24 + 1) (2 ^ 24) = 0xBF800000 ∧
    nearestFloat false (2 ^ 24 + 3) (2 ^ 24) = 0x3F800002 := by decide
theorem witness_NearestLiterals_tie :
    finite (nearestFloat true (2 ^ 24 + 1) (2 ^ 24)) = true ∧ finite 0x3F800001 = true ∧
    |absVal (nearestFloat true (2 ^ 24 + 1) (2 ^ 24)) - ((2 ^ 24 + 1 : ℕ) : ℚ) / ((2 ^ 24 : ℕ) : ℚ)| =
      |absVal 0x3F800001 - ((2 ^ 24 + 1 : ℕ) : ℚ) / ((2 ^ 24 : ℕ) : ℚ)| ∧
    absVal 0x3F800001 ≠ absVal (nearestFloat true (2 ^ 24 + 1) (2 ^ 24)) := by
  have hw : nearestFloat true (2 ^ 24 + 1) (2 ^ 24) = 0xBF800000 := test_asm_tie_to_even.1
  have h1 : bexp 0xBF800000 = 127 := by decide
  have h2 : (frac 0xBF800000).toNat = 0 := by decide
  have h3 : bexp 0x3F800001 = 127 := by decide
  have h4 : (frac 0x3F800001).toNat = 1 := by decide
  refine ⟨by decide, by decide, ?_⟩
  rw [hw]
  simp only [absVal, absUnits, h1, h2, h3, h4]
  norm_num [abs_of_nonpos]

end Sys2Proof.Tests
end

section
/-! SUPPORT. The command word as a number, and the decoder against R37's legality test: the words the decoder accepts
are the legal ones, and each is the word of the instruction it gives. -/

namespace Sys2Proof

/-- Masking off the low `n` bits and comparing is comparing the number of the bits from `n` up. -/
theorem and_highMask_eq_iff (c : CmdWord) (n k : Nat) (hk : k * 2 ^ n < 2 ^ 16) :
    c &&& (BitVec.allOnes 16 <<< n) = BitVec.ofNat 16 (k * 2 ^ n) ↔ c.toNat / 2 ^ n = k := by
  have hlt : c.toNat / 2 ^ n * 2 ^ n < 2 ^ 16 := (Nat.div_mul_le_self ..).trans_lt c.isLt
  rw [← BitVec.shiftLeft_ushiftRight, ← BitVec.toNat_inj, BitVec.toNat_shiftLeft, BitVec.toNat_ushiftRight,
    BitVec.toNat_ofNat, Nat.shiftRight_eq_div_pow, Nat.shiftLeft_eq, Nat.mod_eq_of_lt hlt, Nat.mod_eq_of_lt hk]
  exact Nat.mul_left_inj (by positivity)

/-- OP is the number's top hexadecimal digit (R32). -/
theorem opField_toNat (c : CmdWord) : (opField c).toNat = c.toNat / 4096 := by
  have := c.isLt
  simp [opField, Nat.shiftRight_eq_div_pow]
  omega

/-- FID is the number's last hexadecimal digit (R34). -/
theorem fidField_toNat (c : CmdWord) : (fidField c).toNat = c.toNat % 16 := by
  simp [fidField]

/-- VAL is the number's bits 5:4 (R34). -/
theorem valField_toNat (c : CmdWord) : (valField c).toNat = c.toNat / 16 % 4 := by
  simp [valField, Nat.shiftRight_eq_div_pow]

/-- A span of bits is 0 when its number is. -/
theorem extractLsb'_eq_zero_iff (c : CmdWord) (lo len : Nat) :
    c.extractLsb' lo len = 0 ↔ c.toNat / 2 ^ lo % 2 ^ len = 0 := by
  rw [← BitVec.toNat_inj]
  simp [Nat.shiftRight_eq_div_pow]

/-- R37's five clauses as arithmetic on the word's number. -/
theorem legal_iff (c : CmdWord) :
    legal c = true ↔
      c.toNat = 0x1000 ∨ c.toNat = 0x2000 ∨ c.toNat / 512 = 24 ∨
      (c.toNat / 16 = 0x400 ∧ c.toNat % 16 ≤ 9) ∨
      (c.toNat / 64 = 0x140 ∧ c.toNat % 16 ≤ 9 ∧ (8 ≤ c.toNat % 16 ∨ c.toNat / 32 % 2 = 0)) := by
  have hpatch : c &&& 0xFE00 = 0x3000 ↔ c.toNat / 512 = 24 := and_highMask_eq_iff c 9 24 (by decide)
  have hfget : c &&& 0xFFF0 = 0x4000 ↔ c.toNat / 16 = 0x400 := and_highMask_eq_iff c 4 0x400 (by decide)
  have hfset : c &&& 0xFFC0 = 0x5000 ↔ c.toNat / 64 = 0x140 := and_highMask_eq_iff c 6 0x140 (by decide)
  have hbit : c.getLsbD 5 = false ↔ c.toNat / 32 % 2 = 0 := by
    simp [BitVec.getLsbD, Nat.testBit_eq_decide_div_mod_eq]
  simp only [legal, Bool.or_eq_true, Bool.and_eq_true, beq_iff_eq, decide_eq_true_eq, fidField_toNat,
    hpatch, hfget, hfset, hbit, ← BitVec.toNat_inj, or_assoc, and_assoc]
  rfl

/-- FGET's decoder accepts every id up to 9 (R37). -/
theorem decodeFget_isOk {fid : BitVec 4} (h : fid.toNat ≤ 9) : ∃ i, decodeFget fid = .ok i := by
  cases hf : fieldOfId fid with
  | none => have := (fieldOfId_eq_none fid).mp hf; omega
  | some f => exact ⟨.fget f, by simp [decodeFget, hf]⟩

/-- FSET's decoder accepts every id up to 9 with a VAL of one bit for ids 0 to 7 (R37). -/
theorem decodeFset_isOk {fid : BitVec 4} {v : BitVec 2} (h : fid.toNat ≤ 9)
    (hv : 8 ≤ fid.toNat ∨ v.toNat ≤ 1) : ∃ i, decodeFset fid v = .ok i := by
  cases hf : fieldOfId fid with
  | none => have := (fieldOfId_eq_none fid).mp hf; omega
  | some f =>
    have ha : f.admits v = true := by
      obtain rfl := fid_of_fieldOfId hf
      have hwide : 8 ≤ f.fid.toNat → f = .hyst ∨ f = .res := by cases f <;> decide
      rw [admits_iff, ← or_assoc]
      exact hv.imp_left hwide
    exact ⟨.fset f v, by simp [decodeFset, hf, ha]⟩

/-- Every word R37 calls legal decodes. -/
theorem decodeCmd_isOk_of_legal {c : CmdWord} (h : legal c = true) : ∃ i, decodeCmd c = .ok i := by
  have hop := opField_toNat c
  have hfid := fidField_toNat c
  have hval := valField_toNat c
  rcases (legal_iff c).mp h with hc | hc | hc | ⟨hc, h9⟩ | ⟨hc, h9, hv⟩
  · obtain rfl : c = 0x1000 := BitVec.eq_of_toNat_eq hc
    exact ⟨.decode, rfl⟩
  · obtain rfl : c = 0x2000 := BitVec.eq_of_toNat_eq hc
    exact ⟨.encode, rfl⟩
  · have h3 : (opField c).toNat = 3 := by omega
    have h0 : c.extractLsb' 9 3 = 0 := (extractLsb'_eq_zero_iff c 9 3).mpr (by omega)
    exact ⟨.patch (setField c) (maskField c), by simp only [decodeCmd, h3, h0, if_true]⟩
  · have h4 : (opField c).toNat = 4 := by omega
    have h0 : c.extractLsb' 4 8 = 0 := (extractLsb'_eq_zero_iff c 4 8).mpr (by omega)
    simp only [decodeCmd, h4, h0, if_true]
    exact decodeFget_isOk (by omega)
  · have h5 : (opField c).toNat = 5 := by omega
    have h0 : c.extractLsb' 6 6 = 0 := (extractLsb'_eq_zero_iff c 6 6).mpr (by omega)
    simp only [decodeCmd, h5, h0, if_true]
    exact decodeFset_isOk (by omega) (by omega)

/-- A word the decoder rejects is not legal (R38). -/
theorem legal_eq_false_of_decodeCmd_error {c : CmdWord} {e : DecodeError} (h : decodeCmd c = .error e) :
    legal c = false := by
  rw [← Bool.not_eq_true]
  intro hl
  obtain ⟨i, hi⟩ := decodeCmd_isOk_of_legal hl
  cases h.symm.trans hi

/-- One bit as a word is that bit's span. -/
theorem ofBool_getLsbD (c : CmdWord) (k : Nat) : BitVec.ofBool (c.getLsbD k) = c.extractLsb' k 1 := by
  ext i hi
  obtain rfl : i = 0 := by omega
  simp

/-- Two adjacent spans of a command word are one span. -/
theorem span_append (c : CmdWord) (lo m n : Nat) :
    c.extractLsb' (lo + n) m ++ c.extractLsb' lo n = c.extractLsb' lo (m + n) :=
  BitVec.extractLsb'_append_extractLsb'_eq_extractLsb' rfl

/-- A word with OP 1 or 2 and no other bit set is its OP followed by zeros (R33). -/
theorem op_append_zeros {c : CmdWord} {op : BitVec 4} (hop : c.extractLsb' 12 4 = op)
    (h0 : c.extractLsb' 0 12 = 0b000000000000#12) : op ++ 0b000000000000#12 = c := by
  rw [← hop, ← h0, span_append c 0 4 12]
  exact BitVec.extractLsb'_eq_self

/-- R33's layout of PATCH, read back from its fields. -/
theorem encode_patch_fields {c : CmdWord} (hop : c.extractLsb' 12 4 = 0b0011#4)
    (h0 : c.extractLsb' 9 3 = 0b000#3) : encode (.patch (setField c) (maskField c)) = c := by
  rw [encode, setField, maskField, ofBool_getLsbD, ← hop, ← h0, span_append c 9 4 3, span_append c 8 7 1,
    span_append c 0 8 8]
  exact BitVec.extractLsb'_eq_self

/-- R33's layout of FGET, read back from its fields. -/
theorem encode_fget_fields {c : CmdWord} {f : Field} (hop : c.extractLsb' 12 4 = 0b0100#4)
    (h0 : c.extractLsb' 4 8 = 0b00000000#8) (hf : f.fid = fidField c) : encode (.fget f) = c := by
  rw [encode, hf, fidField, ← hop, ← h0, span_append c 4 4 8, span_append c 0 12 4]
  exact BitVec.extractLsb'_eq_self

/-- R33's layout of FSET, read back from its fields. -/
theorem encode_fset_fields {c : CmdWord} {f : Field} (hop : c.extractLsb' 12 4 = 0b0101#4)
    (h0 : c.extractLsb' 6 6 = 0b000000#6) (hf : f.fid = fidField c) : encode (.fset f (valField c)) = c := by
  rw [encode, hf, fidField, valField, ← hop, ← h0, span_append c 6 4 6, span_append c 4 10 2,
    span_append c 0 12 4]
  exact BitVec.extractLsb'_eq_self

/-- A guarded decoder that accepts has passed its guard. -/
theorem guard_of_ok {p : Prop} [Decidable p] {r : Except DecodeError Instr} {e : DecodeError} {i : Instr}
    (h : (if p then r else .error e) = .ok i) : p ∧ r = .ok i := by
  split at h
  · exact ⟨by assumption, h⟩
  · cases h

/-- What decodes is well-formed, and its word is the one decoded (R33, R37). -/
theorem wellFormed_and_encode_of_decodeCmd_ok {c : CmdWord} {i : Instr} (h : decodeCmd c = .ok i) :
    i.WellFormed ∧ encode i = c := by
  unfold decodeCmd at h
  split at h
  case h_1 hop =>
    obtain ⟨h0, ⟨⟩⟩ := guard_of_ok h
    exact ⟨rfl, op_append_zeros (BitVec.eq_of_toNat_eq hop) h0⟩
  case h_2 hop =>
    obtain ⟨h0, ⟨⟩⟩ := guard_of_ok h
    exact ⟨rfl, op_append_zeros (BitVec.eq_of_toNat_eq hop) h0⟩
  case h_3 hop =>
    obtain ⟨h0, ⟨⟩⟩ := guard_of_ok h
    exact ⟨rfl, encode_patch_fields (BitVec.eq_of_toNat_eq hop) h0⟩
  case h_4 hop =>
    obtain ⟨h0, h⟩ := guard_of_ok h
    obtain ⟨f, hf, rfl⟩ := decodeFget_ok h
    exact ⟨rfl, encode_fget_fields (BitVec.eq_of_toNat_eq hop) h0 hf⟩
  case h_5 hop =>
    obtain ⟨h0, h⟩ := guard_of_ok h
    obtain ⟨f, hf, ha, rfl⟩ := decodeFset_ok h
    exact ⟨ha, encode_fset_fields (BitVec.eq_of_toNat_eq hop) h0 hf⟩
  case h_6 => cases h

end Sys2Proof
end

section
/-! SUPPORT. What the pure function of R9 gives on each instruction's word, in the terms of the machine's meanings. -/

namespace Sys2Proof.Machine

/-- The pure function's masked low byte is the byte operand, widened. -/
theorem and_0xFF_eq {w : Nat} (x : BitVec w) : x.setWidth 32 &&& 0xFF = (x.extractLsb' 0 8).setWidth 32 := by
  have h : ∀ i < 32, (0xFF : Word).getLsbD i = decide (i < 8) := by decide
  ext i hi
  simp only [← BitVec.getLsbD_eq_getElem]
  rw [BitVec.getLsbD_and, h i hi]
  simp [hi, Bool.and_comm]

/-- Merging on 32 bits with the low byte of DIN is merging bytes, for new bits that lie in the mask. -/
theorem merge_lowByte (din : Word) {mask new : Byte} (h : new &&& mask = new) :
    (din &&& 0xFF &&& ~~~mask.setWidth 32) ||| new.setWidth 32 =
      (mergeBits (din.extractLsb' 0 8) mask new).setWidth 32 := by
  have hdin := and_0xFF_eq din
  rw [BitVec.setWidth_eq] at hdin
  rw [hdin, mergeBits, h]
  ext i hi
  by_cases h8 : i < 8 <;> simp [h8, hi]

/-- R50's word: adding the sign flag to the magnitude places it before the magnitude. -/
theorem sign_add_mag12 (x : Word) :
    (if neg x then 0x1000 else 0) + (mag12 x).setWidth 32 = (encodedWord x).setWidth 32 := by
  have hlt := (mag12 x).isLt
  have hor := Nat.two_pow_add_eq_or_of_lt hlt 1
  have hword : (encodedWord x).toNat = (if neg x then 0x1000 else 0) + (mag12 x).toNat := by
    rw [encodedWord, BitVec.toNat_append]
    cases neg x
    · simp
    · exact hor.symm
  apply BitVec.eq_of_toNat_eq
  rw [BitVec.toNat_add, BitVec.toNat_setWidth, BitVec.toNat_setWidth, hword]
  split <;> simp

/-- The pure function reads a field by its raw id as the field table places it (R54, R56). -/
theorem pureGet_fid (f : Field) (din : Word) :
    pureGet f.fid.toNat din = (getField f (din.extractLsb' 0 8)).setWidth 32 := by
  have hraw : pureGet f.fid.toNat din = (din >>> f.shift) &&& (f.mask >>> f.shift).setWidth 32 := by
    cases f <;> rfl
  rw [hraw, getField]
  ext i hi
  by_cases h8 : f.shift + i < 8
  · have h32 : f.shift + i < 32 := by omega
    simp [h8, h32]
  · have hmask : f.mask.getLsbD (f.shift + i) = false := BitVec.getLsbD_of_ge _ _ (Nat.le_of_not_lt h8)
    simp [hmask]

/-- The pure function's masks are the field table's (R54). -/
theorem pureMask_fid (f : Field) : pureMask f.fid.toNat = f.mask.setWidth 32 := by
  cases f <;> rfl

/-- Words with different OP are different. -/
theorem beq_eq_false_of_op {c d op : CmdWord} (hc : c >>> 12 = op) (hd : d >>> 12 ≠ op) : (c == d) = false :=
  beq_eq_false_iff_ne.mpr fun h => hd (h ▸ hc)

/-! One equation for each outcome of the legality test and the operation OP selects. -/

section
variable {c : CmdWord} (din : Word)

theorem pureExec_of_not_legal (h : legal c = false) : pureExec ⟨c, din⟩ = (0, 2) := by
  simp [pureExec, h]

theorem pureExec_of_op3 (hl : legal c = true) (hop : c >>> 12 = 3) :
    pureExec ⟨c, din⟩ =
      ((din &&& 0xFF &&& ~~~(c.setWidth 32 &&& 0xFF)) ||| (if c.getLsbD 8 then c.setWidth 32 &&& 0xFF else 0), 0) := by
  have h1 : (c == 0x1000) = false := beq_eq_false_of_op hop (by decide)
  have h2 : (c == 0x2000) = false := beq_eq_false_of_op hop (by decide)
  simp only [pureExec, hl, h1, h2, hop]
  rfl

theorem pureExec_of_op4 (hl : legal c = true) (hop : c >>> 12 = 4) :
    pureExec ⟨c, din⟩ = (pureGet (c &&& 0x000F).toNat din, 0) := by
  have h1 : (c == 0x1000) = false := beq_eq_false_of_op hop (by decide)
  have h2 : (c == 0x2000) = false := beq_eq_false_of_op hop (by decide)
  simp only [pureExec, hl, h1, h2, hop]
  rfl

theorem pureExec_of_op5 (hl : legal c = true) (hop : c >>> 12 = 5) :
    pureExec ⟨c, din⟩ =
      if (c &&& 0x000F).toNat = 4 then ((0 : Word), (3 : StatusWord))
      else ((din &&& (0xFF : Word) &&& ~~~pureMask (c &&& 0x000F).toNat)
        ||| (((c.setWidth 32 >>> 4) &&& 3) <<< pureShift (c &&& 0x000F).toNat), 0) := by
  have h1 : (c == 0x1000) = false := beq_eq_false_of_op hop (by decide)
  have h2 : (c == 0x2000) = false := beq_eq_false_of_op hop (by decide)
  simp only [pureExec, hl, h1, h2, hop]
  rfl

end

theorem pureExec_decode (din : Word) :
    pureExec ⟨encode .decode, din⟩ = (f32Of16 (dec16 (din.extractLsb' 0 16)), 0) := by
  rw [← BitVec.setWidth_eq_extractLsb' (by decide)]
  rfl

theorem pureExec_encode (din : Word) :
    pureExec ⟨encode .encode, din⟩ =
      if rangeError din then (0, 1) else ((encodedWord din).setWidth 32, 0) := by
  rw [← sign_add_mag12]
  simp [rangeError, pureExec, legal, encode]

theorem encode_patch_getLsbD_8 (set : Bool) (mask : Byte) : (encode (.patch set mask)).getLsbD 8 = set := by
  rw [encode, BitVec.getLsbD_append, BitVec.getLsbD_append]
  simp

theorem encode_patch_lowByte (set : Bool) (mask : Byte) : (encode (.patch set mask)).extractLsb' 0 8 = mask := by
  rw [encode, BitVec.extractLsb'_append_eq_ite]
  simp

theorem pureExec_patch (set : Bool) (mask : Byte) (din : Word) :
    pureExec ⟨encode (.patch set mask), din⟩ = ((patchByte set mask (din.extractLsb' 0 8)).setWidth 32, 0) := by
  have hrow : (encode (.patch set mask)).toNat / 512 = 24 :=
    (and_highMask_eq_iff _ 9 24 (by decide)).mp (Laws.MatchesItsRow.patch set mask)
  have hl : legal (encode (.patch set mask)) = true := (legal_iff _).mpr (.inr (.inr (.inl hrow)))
  have hop : encode (.patch set mask) >>> 12 = 3 := by
    apply BitVec.eq_of_toNat_eq
    simp [Nat.shiftRight_eq_div_pow]
    omega
  have hnew : (if set then mask else 0) &&& mask = if set then mask else 0 := by cases set <;> simp
  rw [pureExec_of_op3 din hl hop, encode_patch_getLsbD_8, and_0xFF_eq, encode_patch_lowByte, patchByte,
    ← merge_lowByte din hnew]
  cases set <;> rfl

/-- What the pure function's tests find in FGET's word: OP 4, legal, and the field's id in bits 3:0 (R33). -/
theorem encode_fget_tests (f : Field) : legal (encode (.fget f)) = true ∧ encode (.fget f) >>> 12 = 4 ∧
    encode (.fget f) &&& 0x000F = f.fid.setWidth 16 := by
  cases f <;> decide

theorem pureExec_fget (f : Field) (din : Word) :
    pureExec ⟨encode (.fget f), din⟩ = ((getField f (din.extractLsb' 0 8)).setWidth 32, 0) := by
  obtain ⟨hl, hop, hfid⟩ := encode_fget_tests f
  rw [pureExec_of_op4 din hl hop, hfid, BitVec.toNat_setWidth_of_le (by decide), pureGet_fid]

/-- What the pure function's tests find in FSET's word, for a VAL that fits: OP 5, legal, and the id in bits 3:0 (R33). -/
theorem encode_fset_tests (f : Field) {v : BitVec 2} (h : f.admits v = true) :
    legal (encode (.fset f v)) = true ∧ encode (.fset f v) >>> 12 = 5 ∧
    encode (.fset f v) &&& 0x000F = f.fid.setWidth 16 := by
  revert v
  cases f <;> decide

/-- VAL, placed in the field, as the pure function shifts it out of FSET's word (R57). -/
theorem encode_fset_placed (f : Field) {v : BitVec 2} (h : f.admits v = true) :
    (((encode (.fset f v)).setWidth 32 >>> 4) &&& 3) <<< pureShift f.fid.toNat =
      (v.setWidth 8 <<< f.shift).setWidth 32 := by
  revert v
  cases f <;> decide

/-- A VAL that fits stays inside the field's mask (R57). -/
theorem placed_and_mask (f : Field) {v : BitVec 2} (h : f.admits v = true) :
    (v.setWidth 8 <<< f.shift) &&& f.mask = v.setWidth 8 <<< f.shift := by
  revert v
  cases f <;> decide

/-- Id 4 is the read-only field's (R54). -/
theorem fid_eq_four_iff (f : Field) : f.fid.toNat = 4 ↔ f.access = .readOnly := by
  cases f <;> decide

theorem pureExec_fset (f : Field) {v : BitVec 2} (h : f.admits v = true) (din : Word) :
    pureExec ⟨encode (.fset f v), din⟩ =
      if f.access = .readOnly then (0, 3) else ((setFieldByte f v (din.extractLsb' 0 8)).setWidth 32, 0) := by
  obtain ⟨hl, hop, hfid⟩ := encode_fset_tests f h
  rw [pureExec_of_op5 din hl hop, hfid, BitVec.toNat_setWidth_of_le (by decide), pureMask_fid,
    encode_fset_placed f h, merge_lowByte din (placed_and_mask f h), ← setFieldByte]
  simp only [fid_eq_four_iff]

/-! ## O13 -/

/-- A well-formed instruction completes with what the pure function gives for its word and DIN (R9). -/
theorem exec_eq_complete_pureExec {i : Instr} (h : i.WellFormed) (s : State) :
    exec i s = .next (s.complete (pureExec ⟨encode i, s.din⟩).1 (pureExec ⟨encode i, s.din⟩).2) := by
  cases i with
  | decode => rw [pureExec_decode]; rfl
  | encode =>
    rw [pureExec_encode]
    change execEncode s = _
    unfold execEncode floatOperand
    split <;> rfl
  | patch set mask => rw [pureExec_patch]; rfl
  | fget f => rw [pureExec_fget]; rfl
  | fset f v =>
    have ha : f.admits v = true := h
    rw [pureExec_fset f ha]
    change execFset f v s = _
    rw [execFset, if_pos ha]
    split <;> rfl

/-- Settles O13: a word the decoder rejects is not legal, and one it accepts is the word of the instruction that runs. -/
theorem commandsRefineThePureFunction : Obligations.CommandsRefineThePureFunction := by
  intro s c
  cases hd : decodeCmd c with
  | error e =>
    rw [pureExec_of_not_legal s.din (legal_eq_false_of_decodeCmd_error hd), execCommand, hd]
    rfl
  | ok i =>
    obtain ⟨hwf, rfl⟩ := wellFormed_and_encode_of_decodeCmd_ok hd
    rw [execCommand, hd]
    exact exec_eq_complete_pureExec hwf s

end Sys2Proof.Machine
end

section
/-! SUPPORT. Which DIN bits a command reads and which DOUT bits it writes (R27): operands that agree on the bits read are
equal, and a result below 2^n sets no bit outside the low n. -/

namespace Sys2Proof.Machine

variable {s t : State}

/-- Words that agree under a mask holding the low `n` bits have the same low `n` bits. -/
theorem lowBits_eq_of_and_eq {x y mask : Word} {n : Nat} (hmask : mask.extractLsb' 0 n = BitVec.allOnes n)
    (h : x &&& mask = y &&& mask) : x.extractLsb' 0 n = y.extractLsb' 0 n := by
  have := congrArg (BitVec.extractLsb' 0 n) h
  simpa only [BitVec.extractLsb'_and, hmask, BitVec.and_allOnes] using this

theorem regWordOperand_eq_of_and_eq (h : s.din &&& 0x0000FFFF = t.din &&& 0x0000FFFF) :
    regWordOperand s = regWordOperand t :=
  lowBits_eq_of_and_eq (by decide) h

theorem floatOperand_eq_of_and_eq (h : s.din &&& 0xFFFFFFFF = t.din &&& 0xFFFFFFFF) :
    floatOperand s = floatOperand t := by
  change s.din &&& BitVec.allOnes 32 = t.din &&& BitVec.allOnes 32 at h
  rwa [BitVec.and_allOnes, BitVec.and_allOnes] at h

theorem byteOperand_eq_of_and_eq (h : s.din &&& 0x000000FF = t.din &&& 0x000000FF) :
    byteOperand s = byteOperand t :=
  lowBits_eq_of_and_eq (by decide) h

/-- A word below `2 ^ n` has no bit outside the low `n`. -/
theorem and_not_lowMask {v : Word} (n : Nat) (h : v.toNat < 2 ^ n) :
    v &&& ~~~BitVec.ofNat 32 (2 ^ n - 1) = 0 := by
  ext i hi
  by_cases hn : i < n
  · have hmask : (BitVec.ofNat 32 (2 ^ n - 1)).getLsbD i = true := by
      simp [BitVec.getLsbD_ofNat, Nat.testBit_two_pow_sub_one, hi, hn]
    simp [← BitVec.getLsbD_eq_getElem, hi, hmask]
  · have hbit : v.toNat.testBit i = false :=
      Nat.testBit_lt_two_pow (h.trans_le (Nat.pow_le_pow_right (by decide) (Nat.le_of_not_lt hn)))
    simp [← BitVec.getLsbD_eq_getElem, BitVec.getLsbD, hbit]

/-- A narrower word, widened, has no bit outside its own width. -/
theorem setWidth_and_not_lowMask {n : Nat} (v : BitVec n) :
    v.setWidth 32 &&& ~~~BitVec.ofNat 32 (2 ^ n - 1) = 0 :=
  and_not_lowMask n <| by
    rw [BitVec.toNat_setWidth]
    exact (Nat.mod_le ..).trans_lt v.isLt

/-- No field is wider than two bits (R54), so FGET's byte is at most 3 (R56). -/
theorem getField_lt_four (f : Field) (cur : Byte) : (getField f cur).toNat < 2 ^ 2 :=
  calc (getField f cur).toNat
    _ = (cur.toNat &&& f.mask.toNat) >>> f.shift := by
      rw [getField, BitVec.toNat_ushiftRight, BitVec.toNat_and]
    _ ≤ f.mask.toNat >>> f.shift := by
      rw [Nat.shiftRight_eq_div_pow, Nat.shiftRight_eq_div_pow]
      exact Nat.div_le_div_right Nat.and_le_right
    _ < 2 ^ 2 := by cases f <;> decide

/-- Both outcomes are next states, with the same DOUT and STATUS and no DOUT bit outside `mask`. -/
def SameResultWithin (mask : Word) (o p : Outcome) : Prop :=
  ∃ s' t' : State, o = .next s' ∧ p = .next t' ∧ s'.result = t'.result ∧ s'.dout &&& ~~~mask = 0

theorem succeed_sameResultWithin {mask v : Word} (h : v &&& ~~~mask = 0) :
    SameResultWithin mask (succeed v s) (succeed v t) :=
  ⟨s.complete v 0, t.complete v 0, rfl, rfl, rfl, h⟩

theorem raise_sameResultWithin (mask : Word) (e : Error) : SameResultWithin mask (raise e s) (raise e t) :=
  ⟨s.complete 0 e.code, t.complete 0 e.code, rfl, rfl, rfl, BitVec.zero_and⟩

/-! Each command on states with the same operand. -/

theorem execDecode_sameResult (h : regWordOperand s = regWordOperand t) :
    SameResultWithin 0xFFFFFFFF (execDecode s) (execDecode t) := by
  rw [execDecode, execDecode, h]
  exact succeed_sameResultWithin (and_not_lowMask 32 (BitVec.isLt _))

theorem execEncode_sameResult (h : floatOperand s = floatOperand t) :
    SameResultWithin 0x0000FFFF (execEncode s) (execEncode t) := by
  rw [execEncode, execEncode, h]
  split
  · exact raise_sameResultWithin _ .range
  · exact succeed_sameResultWithin (setWidth_and_not_lowMask (encodedWord _))

theorem execPatch_sameResult (set : Bool) (mask : Byte) (h : byteOperand s = byteOperand t) :
    SameResultWithin 0x000000FF (execPatch set mask s) (execPatch set mask t) := by
  rw [execPatch, execPatch, h]
  exact succeed_sameResultWithin (setWidth_and_not_lowMask (patchByte ..))

theorem execFget_sameResult (f : Field) (h : byteOperand s = byteOperand t) :
    SameResultWithin 0x00000003 (execFget f s) (execFget f t) := by
  rw [execFget, execFget, h]
  refine succeed_sameResultWithin (and_not_lowMask 2 ?_)
  rw [BitVec.toNat_setWidth_of_le (by decide)]
  exact getField_lt_four f _

theorem execFset_sameResult (f : Field) (v : BitVec 2) (h : byteOperand s = byteOperand t) :
    SameResultWithin 0x000000FF (execFset f v s) (execFset f v t) := by
  rw [execFset, execFset, h]
  split
  · split
    · exact raise_sameResultWithin _ .readOnly
    · exact succeed_sameResultWithin (setWidth_and_not_lowMask (setFieldByte ..))
  · exact raise_sameResultWithin _ .illegal

/-! ## O21 -/

/-- Settles O21: agreeing on the bits a command reads gives it the same operand, which alone fixes its result. -/
theorem unreadDinBitsHaveNoEffect : Obligations.UnreadDinBitsHaveNoEffect := by
  intro i s t h
  cases i with
  | decode => exact execDecode_sameResult (regWordOperand_eq_of_and_eq h)
  | encode => exact execEncode_sameResult (floatOperand_eq_of_and_eq h)
  | patch set mask => exact execPatch_sameResult set mask (byteOperand_eq_of_and_eq h)
  | fget f => exact execFget_sameResult f (byteOperand_eq_of_and_eq h)
  | fset f v => exact execFset_sameResult f v (byteOperand_eq_of_and_eq h)

end Sys2Proof.Machine
end

section
/-! SUPPORT. Which command words are legal and what a word's instruction shows of it (R34, R36 to R38), and the words of
the pseudo-instructions (R42). -/

namespace Sys2Proof

/-- A well-formed instruction's word is legal (R37). -/
theorem legal_encode {i : Instr} (h : i.WellFormed) : legal (encode i) = true := by
  cases i with
  | decode => rfl
  | encode => rfl
  | patch set mask =>
    have hrow : (encode (.patch set mask)).toNat / 512 = 24 :=
      (and_highMask_eq_iff _ 9 24 (by decide)).mp (Laws.MatchesItsRow.patch set mask)
    exact (legal_iff _).mpr (.inr (.inr (.inl hrow)))
  | fget f => exact (Machine.encode_fget_tests f).1
  | fset f v => exact (Machine.encode_fset_tests f h).1

/-- The decoder accepts exactly the legal words (R37). -/
theorem decodeCmd_isOk_iff (c : CmdWord) : (∃ i, decodeCmd c = .ok i) ↔ legal c = true := by
  refine ⟨?_, decodeCmd_isOk_of_legal⟩
  rintro ⟨i, hi⟩
  obtain ⟨hwf, rfl⟩ := wellFormed_and_encode_of_decodeCmd_ok hi
  exact legal_encode hwf

/-- Every instruction's word matches its row of R36. -/
theorem encode_matches_row (i : Instr) : encode i &&& (opcodeRow i).maskWord = (opcodeRow i).matchWord := by
  cases i with
  | decode => exact Laws.MatchesItsRow.decode
  | encode => exact Laws.MatchesItsRow.encode
  | patch set mask => exact Laws.MatchesItsRow.patch set mask
  | fget f => exact Laws.MatchesItsRow.fget f
  | fset f v => exact Laws.MatchesItsRow.fset f v

/-- FGET's word ends in the field's id (R33, R34). -/
theorem encode_fget_fid (f : Field) : (encode (.fget f)).extractLsb' 0 4 = f.fid :=
  BitVec.extractLsb'_append_eq_right

/-- FSET's word ends in the field's id (R33, R34). -/
theorem encode_fset_fid (f : Field) (v : BitVec 2) : (encode (.fset f v)).extractLsb' 0 4 = f.fid :=
  BitVec.extractLsb'_append_eq_right

/-- FSET's word holds VAL just above the field's id (R33, R34). -/
theorem encode_fset_val (f : Field) (v : BitVec 2) : (encode (.fset f v)).extractLsb' 4 2 = v := by
  rw [encode, BitVec.extractLsb'_append_eq_ite]
  exact BitVec.extractLsb'_append_eq_right

/-- A bit of a command word as arithmetic on its number. -/
theorem getLsbD_eq_true_iff (c : CmdWord) (k : Nat) : c.getLsbD k = true ↔ c.toNat / 2 ^ k % 2 = 1 := by
  simp [BitVec.getLsbD, Nat.testBit_eq_decide_div_mod_eq]

/-! What makes a word illegal, for each value of OP (R33, R38). -/

section
variable {c : CmdWord}

theorem not_legal_of_op_reserved (h : (opField c).toNat = 0 ∨ 6 ≤ (opField c).toNat) : legal c = false := by
  rw [opField_toNat] at h
  rw [← Bool.not_eq_true, legal_iff]
  omega

theorem not_legal_iff_of_op_codec (h : (opField c).toNat = 1 ∨ (opField c).toNat = 2) :
    legal c = false ↔ c.extractLsb' 0 12 ≠ 0 := by
  rw [opField_toNat] at h
  rw [← Bool.not_eq_true, legal_iff, ne_eq, extractLsb'_eq_zero_iff]
  omega

theorem not_legal_iff_of_op_patch (h : (opField c).toNat = 3) : legal c = false ↔ c.extractLsb' 9 3 ≠ 0 := by
  rw [opField_toNat] at h
  rw [← Bool.not_eq_true, legal_iff, ne_eq, extractLsb'_eq_zero_iff]
  omega

theorem not_legal_iff_of_op_fget (h : (opField c).toNat = 4) :
    legal c = false ↔ c.extractLsb' 4 8 ≠ 0 ∨ 10 ≤ (fidField c).toNat := by
  rw [opField_toNat] at h
  rw [← Bool.not_eq_true, legal_iff, ne_eq, extractLsb'_eq_zero_iff, fidField_toNat]
  omega

theorem not_legal_iff_of_op_fset (h : (opField c).toNat = 5) :
    legal c = false ↔ c.extractLsb' 6 6 ≠ 0 ∨ 10 ≤ (fidField c).toNat ∨
      ((fidField c).toNat ≤ 7 ∧ c.getLsbD 5 = true) := by
  rw [opField_toNat] at h
  rw [← Bool.not_eq_true, legal_iff, ne_eq, extractLsb'_eq_zero_iff, fidField_toNat, getLsbD_eq_true_iff]
  omega

end

/-- R38's list of the illegal words is complete. -/
theorem not_legal_iff (c : CmdWord) :
    legal c = false ↔
      (opField c).toNat = 0 ∨ 6 ≤ (opField c).toNat ∨
      ((opField c).toNat = 1 ∧ c.extractLsb' 0 12 ≠ 0) ∨
      ((opField c).toNat = 2 ∧ c.extractLsb' 0 12 ≠ 0) ∨
      ((opField c).toNat = 3 ∧ c.extractLsb' 9 3 ≠ 0) ∨
      ((opField c).toNat = 4 ∧ (c.extractLsb' 4 8 ≠ 0 ∨ 10 ≤ (fidField c).toNat)) ∨
      ((opField c).toNat = 5 ∧ (c.extractLsb' 6 6 ≠ 0 ∨ 10 ≤ (fidField c).toNat ∨
        ((fidField c).toNat ≤ 7 ∧ c.getLsbD 5 = true))) := by
  have hop : (opField c).toNat = 0 ∨ 6 ≤ (opField c).toNat ∨ (opField c).toNat = 1 ∨ (opField c).toNat = 2 ∨
      (opField c).toNat = 3 ∨ (opField c).toNat = 4 ∨ (opField c).toNat = 5 := by omega
  rcases hop with h | h | h | h | h | h | h
  · simp [h, not_legal_of_op_reserved (.inl h)]
  · simp [h, not_legal_of_op_reserved (.inr h)]
  · simp [h, not_legal_iff_of_op_codec (.inl h)]
  · simp [h, not_legal_iff_of_op_codec (.inr h)]
  · simp [h, not_legal_iff_of_op_patch h]
  · simp [h, not_legal_iff_of_op_fget h]
  · simp [h, not_legal_iff_of_op_fset h]

/-- Appending a byte is placing what stands before it eight bits up. -/
theorem append_byte_eq_or (x : BitVec 8) (m : Byte) : x ++ m = x.setWidth 16 <<< 8 ||| m.setWidth 16 := by
  rw [BitVec.append_def, BitVec.shiftLeftZeroExtend_eq, BitVec.setWidth'_eq]

/-- PATCH's word is its OP and S with MASK in the low byte (R33, R42). -/
theorem encode_patch_eq_or (set : Bool) (m : Byte) :
    encode (.patch set m) = (if set then 0x3100 else 0x3000) ||| m.setWidth 16 := by
  cases set
  · exact append_byte_eq_or 0x30 m
  · exact append_byte_eq_or 0x31 m

/-- FGET's word is its OP with FID in the low digit (R33, R42). -/
theorem encode_fget_eq_or (f : Field) : encode (.fget f) = 0x4000 ||| f.fid.setWidth 16 := by
  cases f <;> rfl

end Sys2Proof

namespace Sys2Proof.Machine

/-- A word that decodes runs its instruction (R37). -/
theorem execCommand_of_ok {c : CmdWord} {i : Instr} (h : decodeCmd c = .ok i) (s : State) :
    execCommand c s = exec i s := by
  rw [execCommand, h]

/-- An illegal word raises ERR_ILLEGAL, whatever is wrong with it (R38). -/
theorem execCommand_of_not_legal {c : CmdWord} (h : legal c = false) (s : State) :
    execCommand c s = raise .illegal s := by
  cases hd : decodeCmd c with
  | error e => rw [execCommand, hd]
  | ok i => exact absurd ((decodeCmd_isOk_iff c).mp ⟨i, hd⟩) (by simp [h])

/-! ## O3 -/

/-- Settles O3: the decoder accepts the legal words, and each is the word of its instruction, whose row and operands are
read off R33's layout. -/
theorem legalWordsAreThoseOfTheFiveRows : Obligations.LegalWordsAreThoseOfTheFiveRows := by
  refine ⟨fun c => ?_, fun c i hi => ?_, fun c s => ⟨fun i hi => execCommand_of_ok hi s, fun h => ?_⟩⟩
  · rw [decodeCmd_isOk_iff]
    simp only [legal, Bool.or_eq_true, Bool.and_eq_true, beq_iff_eq, decide_eq_true_eq, or_assoc, and_assoc]
    rfl
  · obtain ⟨-, rfl⟩ := wellFormed_and_encode_of_decodeCmd_ok hi
    refine ⟨encode_matches_row i, ?_⟩
    cases i with
    | decode => trivial
    | encode => trivial
    | patch set mask => exact ⟨(encode_patch_getLsbD_8 set mask).symm, (encode_patch_lowByte set mask).symm⟩
    | fget f => exact (encode_fget_fid f).symm
    | fset f v => exact ⟨(encode_fset_fid f v).symm, (encode_fset_val f v).symm⟩
  · have hl : legal c = false := by
      rw [← Bool.not_eq_true, ← decodeCmd_isOk_iff]
      exact not_exists.mpr h
    exact execCommand_of_not_legal hl s

/-! ## O4 -/

/-- Settles O4: OP selects the layout whose reserved bits and operands are to be tested, and an illegal word raises
ERR_ILLEGAL. -/
theorem illegalCommandsCompleteWithErrIllegal : Obligations.IllegalCommandsCompleteWithErrIllegal :=
  ⟨not_legal_iff, fun s _ h => execCommand_of_not_legal h s⟩

/-! ## O5 -/

/-- Settles O5: each pseudo-instruction is its command by definition, and its word is the layout's OP with the operand. -/
theorem pseudoInstructionsExpandToOneCommand : Obligations.PseudoInstructionsExpandToOneCommand :=
  ⟨fun m => ⟨rfl, encode_patch_eq_or true m⟩, fun m => ⟨rfl, encode_patch_eq_or false m⟩,
    fun f => ⟨rfl, encode_fget_eq_or f⟩⟩

end Sys2Proof.Machine
end

section
/-! SUPPORT. The codec's commands against the words the spec writes out (R44, R46, R48 to R50), and the sign flag of
ENCODE against the sign of the value (R49). -/

namespace Sys2Proof

/-- An instruction that its own word decodes to is the meaning of no other word (R33, R36). -/
theorem decodeCmd_eq_ok_iff {i : Instr} (h : decodeCmd (encode i) = .ok i) (c : CmdWord) :
    decodeCmd c = .ok i ↔ c = encode i := by
  constructor
  · intro hc
    exact (wellFormed_and_encode_of_decodeCmd_ok hc).2.symm
  · rintro rfl
    exact h

end Sys2Proof

namespace Sys2Proof.Machine

/-! ## O29 -/

/-- The sign flag is the sign bit, but for the two zeros (R49). -/
theorem neg_eq_true_iff (x : Word) : neg x = true ↔ sgn x = true ∧ ¬ (bexp x = 0 ∧ frac x = 0) := by
  simp [neg, imp_iff_not_or]

/-- The two zeros are the words whose number is 0 (R8). -/
theorem absUnits_eq_zero_iff (x : Word) : absUnits x = 0 ↔ bexp x = 0 ∧ frac x = 0 := by
  have hfrac : (frac x).toNat = 0 ↔ frac x = 0 := BitVec.toNat_inj (y := 0)
  unfold absUnits
  split
  case isTrue h => simp [h, hfrac]
  case isFalse h => simp [h]

theorem absVal_nonneg (x : Word) : 0 ≤ absVal x := by
  unfold absVal
  positivity

theorem absVal_eq_zero_iff (x : Word) : absVal x = 0 ↔ bexp x = 0 ∧ frac x = 0 := by
  rw [← absUnits_eq_zero_iff]
  simp [absVal]

/-- A value is below 0 exactly when the sign bit is set on a magnitude that is not 0. -/
theorem val_neg_iff (x : Word) : val x < 0 ↔ sgn x = true ∧ absVal x ≠ 0 := by
  have h0 := absVal_nonneg x
  unfold val
  split
  case isTrue h => simp [h, h0.lt_iff_ne']
  case isFalse h => simp [h, h0]

/-- The sign flag is the sign of the number the word's fields denote (R49). -/
theorem neg_eq_true_iff_val_neg (x : Word) : neg x = true ↔ val x < 0 := by
  rw [neg_eq_true_iff, val_neg_iff, ne_eq, absVal_eq_zero_iff]

/-- Settles O29: for an infinity the exponent already rules -0.0 out; any other word is negative when its magnitude is
not 0 under a set sign bit. -/
theorem negIsTheSignOfTheValue : Obligations.NegIsTheSignOfTheValue := by
  intro x _
  split
  case isTrue hinf => simp [neg_eq_true_iff, hinf]
  case isFalse => exact neg_eq_true_iff_val_neg x

/-! ## O22 -/

/-- Settles O22: DECODE always succeeds with the converted register word, and 0x1000 is its only word. -/
theorem decodeWritesTheConvertedWord : Obligations.DecodeWritesTheConvertedWord :=
  ⟨fun _ => rfl, decodeCmd_eq_ok_iff (i := .decode) rfl⟩

/-! ## O27 -/

/-- ENCODE on an input in range succeeds with the register word (R50). -/
theorem exec_encode_of_lt {s : State} (h : bexp s.din < 135) :
    exec .encode s = succeed ((encodedWord s.din).setWidth 32) s := by
  have hr : ¬ rangeError s.din = true := by simpa [rangeError] using h
  exact if_neg hr

/-- ENCODE on an input out of range raises ERR_RANGE (R47, R50). -/
theorem exec_encode_of_ge {s : State} (h : 135 ≤ bexp s.din) : exec .encode s = raise .range s := by
  have hr : rangeError s.din = true := by simpa [rangeError] using h
  exact if_pos hr

/-- Cutting the quarters to 12 bits before or after placing them gives the same magnitude (R48). -/
theorem mag12_eq_shiftLeft (x : Word) : mag12 x = (quarters x).setWidth 12 <<< 2 :=
  BitVec.setWidth_shiftLeft_of_le (by decide)

/-- The sign flag as a bit (R49, R50). -/
theorem ofBool_neg (x : Word) :
    BitVec.ofBool (neg x) = if sgn x = true ∧ ¬ (bexp x = 0 ∧ frac x = 0) then 1#1 else 0#1 := by
  simp only [← neg_eq_true_iff]
  cases neg x <;> rfl

/-- A register word on DOUT: its two bytes, MSB then LSB, with zeros above (R24, R50). -/
theorem setWidth_eq_zero_append_bytes (t : BitVec 4) (r : BitVec 12) :
    (t ++ r : RegWord).setWidth 32 = 0#16 ++ (t ++ r.extractLsb' 8 4 ++ r.extractLsb' 0 8) := by
  have hr : r.extractLsb' 8 4 ++ r.extractLsb' 0 8 = r := BitVec.extractLsb'_append_extractLsb' (w := 4)
  rw [BitVec.append_assoc, hr]
  exact BitVec.setWidth_eq_append (by decide)

/-- Settles O27: the biased exponent decides between the register word and ERR_RANGE, and 0x2000 is ENCODE's only word. -/
theorem encodeWritesTheRegisterWord : Obligations.EncodeWritesTheRegisterWord := by
  refine ⟨fun s h => ?_, fun s h => exec_encode_of_ge h, decodeCmd_eq_ok_iff (i := .encode) rfl⟩
  rw [exec_encode_of_lt h, encodedWord, setWidth_eq_zero_append_bytes, ofBool_neg, mag12_eq_shiftLeft]
  rfl

end Sys2Proof.Machine
end

section
/-! SUPPORT. The rows of the field table (R54), the command word of every well-formed instruction as the one word that
decodes to it (R33, R37), and what PATCH, FGET and FSET answer (R55 to R57). -/

namespace Sys2Proof

/-! The columns of the field table that R54 gives as rules. -/

theorem mask_eq_shifted_ones (f : Field) : f.mask = ((1 <<< f.width) - 1) <<< f.shift := by
  cases f <;> rfl

theorem byte_eq (f : Field) :
    f.byte = if f = .hyst then .configMsb else if f = .res then .resolution else .configLsb := by
  cases f <;> rfl

theorem width_eq (f : Field) : f.width = if f = .hyst ∨ f = .res then 2 else 1 := by
  cases f <;> rfl

theorem shift_eq (f : Field) : f.shift = if f = .hyst then 1 else if f = .res then 0 else f.fid.toNat := by
  cases f <;> rfl

/-- PATCH's word decodes to that PATCH: OP is 3, the reserved bits are 0, and S and MASK are read back (R33, R37). -/
theorem decodeCmd_encode_patch (set : Bool) (mask : Byte) :
    decodeCmd (encode (.patch set mask)) = .ok (.patch set mask) := by
  have hrow : (encode (.patch set mask)).toNat / 512 = 24 :=
    (and_highMask_eq_iff _ 9 24 (by decide)).mp (encode_matches_row (.patch set mask))
  have hop : (opField (encode (.patch set mask))).toNat = 3 := by rw [opField_toNat]; omega
  have h0 : (encode (.patch set mask)).extractLsb' 9 3 = 0 := by rw [extractLsb'_eq_zero_iff]; omega
  simp only [decodeCmd, hop, h0, if_true, setField, maskField, Machine.encode_patch_getLsbD_8,
    Machine.encode_patch_lowByte]

/-- FGET's word decodes to that FGET (R33, R37). -/
theorem decodeCmd_encode_fget (f : Field) : decodeCmd (encode (.fget f)) = .ok (.fget f) := by
  cases f <;> rfl

/-- FSET's word decodes to that FSET, for a VAL that fits its field (R33, R37). -/
theorem decodeCmd_encode_fset (f : Field) {v : BitVec 2} (h : f.admits v = true) :
    decodeCmd (encode (.fset f v)) = .ok (.fset f v) := by
  revert v
  cases f <;> decide

/-- Decoding a well-formed instruction's word gives the instruction back (R33, R37). -/
theorem decodeCmd_encode {i : Instr} (h : i.WellFormed) : decodeCmd (encode i) = .ok i := by
  cases i with
  | decode => rfl
  | encode => rfl
  | patch set mask => exact decodeCmd_encode_patch set mask
  | fget f => exact decodeCmd_encode_fget f
  | fset f v => exact decodeCmd_encode_fset f h

/-- A word decodes to an instruction exactly when the instruction is well-formed and the word is its own (R33, R37). -/
theorem decodeCmd_eq_ok_iff_wellFormed (c : CmdWord) (i : Instr) :
    decodeCmd c = .ok i ↔ i.WellFormed ∧ c = encode i := by
  constructor
  · intro hc
    obtain ⟨hwf, henc⟩ := wellFormed_and_encode_of_decodeCmd_ok hc
    exact ⟨hwf, henc.symm⟩
  · rintro ⟨hwf, rfl⟩
    exact decodeCmd_encode hwf

/-- FSET's word is its OP with VAL above the low digit and FID in it (R33). -/
theorem encode_fset_eq_or (f : Field) (v : BitVec 2) :
    encode (.fset f v) = 0x5000 ||| (v.setWidth 16 <<< 4) ||| f.fid.setWidth 16 := by
  revert v
  cases f <;> decide

end Sys2Proof

namespace Sys2Proof.Machine

/-- The bits PATCH sets lie in its mask already, so its byte needs no second masking (R55). -/
theorem patchByte_eq (set : Bool) (mask cur : Byte) :
    patchByte set mask cur = (cur &&& ~~~mask) ||| (if set then mask else 0) := by
  have hnew : (if set then mask else 0) &&& mask = if set then mask else 0 := by cases set <;> simp
  rw [patchByte, mergeBits, hnew]

/-! One equation for each of FSET's three outcomes. -/

section
variable {f : Field} {v : BitVec 2}

theorem exec_fset_of_writable (hv : f.admits v = true) (hf : f ≠ .alertStatus) (s : State) :
    exec (.fset f v) s = succeed ((setFieldByte f v (byteOperand s)).setWidth 32) s := by
  have hw : f.access ≠ .readOnly := mt (access_readOnly_iff f).mp hf
  change execFset f v s = _
  rw [execFset, if_pos hv, if_neg hw]

theorem exec_fset_of_readOnly (hv : f.admits v = true) (hf : f.access = .readOnly) (s : State) :
    exec (.fset f v) s = raise .readOnly s := by
  change execFset f v s = _
  rw [execFset, if_pos hv, if_pos hf]

theorem exec_fset_of_not_admits (hv : ¬ f.admits v = true) (s : State) :
    exec (.fset f v) s = raise .illegal s :=
  if_neg hv

end

/-! ## O35 -/

/-- Settles O35: the ten ids name the ten fields, and each column of the table follows its rule. -/
theorem fieldTableIsR54 : Obligations.FieldTableIsR54 :=
  ⟨rfl, fieldOfId_eq_none, fun f => ⟨fieldOfId_fid f, mask_eq_shifted_ones f, access_readOnly_iff f, byte_eq f,
    width_eq f, shift_eq f⟩⟩

/-! ## O36 -/

/-- Settles O36: PATCH always succeeds with its byte, and its word is the one R33 lays out. -/
theorem patchSetsOrClearsTheMask : Obligations.PatchSetsOrClearsTheMask := by
  refine ⟨fun set mask s => ?_, fun c set mask => ?_⟩
  · rw [← patchByte_eq]
    rfl
  · have hword : encode (.patch set mask) = 0x3000 ||| (if set then 0x0100 else 0) ||| mask.setWidth 16 := by
      rw [encode_patch_eq_or]
      cases set <;> rfl
    rw [decodeCmd_eq_ok_iff (decodeCmd_encode_patch set mask), hword]

/-! ## O37 -/

/-- Settles O37: FGET always succeeds with the field's bits, and its word is the one R33 lays out. -/
theorem fgetReadsTheFieldRightAligned : Obligations.FgetReadsTheFieldRightAligned := by
  refine ⟨fun f s => rfl, fun c f => ?_⟩
  rw [decodeCmd_eq_ok_iff (decodeCmd_encode_fget f), encode_fget_eq_or]

/-! ## O38 -/

/-- Settles O38: whether VAL fits is tested first, then whether the field is read-only; only a VAL that fits has a word. -/
theorem fsetWritesTheField : Obligations.FsetWritesTheField := by
  refine ⟨fun f v s hf hv => ?_, fun v s hv => ?_, fun f v s hh hr hv => ?_, fun c f v => ?_⟩
  · exact exec_fset_of_writable ((admits_iff f v).mpr hv) hf s
  · exact exec_fset_of_readOnly ((admits_iff .alertStatus v).mpr (.inr (.inr hv))) rfl s
  · have hwide : ¬ f.admits v = true := by
      simp only [admits_iff, hh, hr, false_or]
      omega
    exact exec_fset_of_not_admits hwide s
  · rw [decodeCmd_eq_ok_iff_wellFormed, ← encode_fset_eq_or, ← admits_iff]
    rfl

end Sys2Proof.Machine
end

section
/-! SUPPORT. The STATUS each instruction reports (R59), read off its word in the order of R61. -/

namespace Sys2Proof

/-- Every row's mask fixes the four bits of OP, so OP of an instruction's word is that of its row (R32, R36). -/
theorem opField_encode (i : Instr) : opField (encode i) = opField (opcodeRow i).matchWord := by
  have hmask : opField (opcodeRow i).maskWord = BitVec.allOnes 4 := by
    cases i <;> simp [opcodeRow, opField]
  calc opField (encode i)
      = opField (encode i) &&& opField (opcodeRow i).maskWord := by rw [hmask, BitVec.and_allOnes]
    _ = opField (encode i &&& (opcodeRow i).maskWord) := BitVec.extractLsb'_and.symm
    _ = opField (opcodeRow i).matchWord := by rw [encode_matches_row]

end Sys2Proof

namespace Sys2Proof.Machine

/-- The outcome writes DOUT and STATUS only, STATUS with `code`, and leaves DOUT 0 if that is an error (R60). -/
def CompletesWith (code : StatusWord) (s : State) (o : Outcome) : Prop :=
  ∃ t : State, o = .next t ∧ t.status = code ∧ (t.status ≠ 0 → t.dout = 0) ∧
    t = { s with dout := t.dout, status := t.status }

theorem succeed_completesWith (v : Word) (s : State) : CompletesWith 0 s (succeed v s) :=
  ⟨s.complete v 0, rfl, rfl, fun h => absurd rfl h, rfl⟩

theorem raise_completesWith (e : Error) (s : State) : CompletesWith e.code s (raise e s) :=
  ⟨s.complete 0 e.code, rfl, rfl, fun _ => rfl, rfl⟩

/-- R59's table for a legal instruction: only FSET and ENCODE can report an error. -/
def reportedStatus : Instr → Word → StatusWord
  | .encode, din => if 135 ≤ bexp din then 1 else 0
  | .fset f _, _ => if f.access = .readOnly then 3 else 0
  | _, _ => 0

theorem exec_completesWith {i : Instr} (h : i.WellFormed) (s : State) :
    CompletesWith (reportedStatus i s.din) s (exec i s) := by
  cases i with
  | decode => exact succeed_completesWith _ s
  | encode =>
    rw [reportedStatus]
    split
    case isTrue hb =>
      rw [exec_encode_of_ge hb]
      exact raise_completesWith .range s
    case isFalse hb =>
      rw [exec_encode_of_lt (not_le.mp hb)]
      exact succeed_completesWith _ s
  | patch set mask => exact succeed_completesWith _ s
  | fget f => exact succeed_completesWith _ s
  | fset f v =>
    rw [reportedStatus]
    split
    case isTrue hf =>
      rw [exec_fset_of_readOnly h hf]
      exact raise_completesWith .readOnly s
    case isFalse hf =>
      rw [exec_fset_of_writable h (mt (access_readOnly_iff f).mpr hf)]
      exact succeed_completesWith _ s

/-- The order of R61 on an instruction's word: OP tells FSET and ENCODE from the rest, and the read-only field is FID 4. -/
theorem reportedStatus_eq (i : Instr) (din : Word) :
    reportedStatus i din =
      if (opField (encode i)).toNat = 5 ∧ (fidField (encode i)).toNat = 4 then 3
      else if (opField (encode i)).toNat = 2 ∧ 135 ≤ bexp din then 1
      else 0 := by
  rw [opField_encode]
  cases i with
  | decode => rfl
  | encode => simp [reportedStatus, opcodeRow, opField]
  | patch set mask => simp [reportedStatus, opcodeRow, opField]
  | fget f => simp [reportedStatus, opcodeRow, opField]
  | fset f v =>
    have hfid : fidField (encode (.fset f v)) = f.fid := encode_fset_fid f v
    simp [reportedStatus, opcodeRow, opField, hfid, fid_eq_four_iff]

/-! ## O19 -/

/-- Settles O19: an illegal word raises ERR_ILLEGAL before anything else is tested; a legal one is the word of a
well-formed instruction, whose report R61's order gives. -/
theorem errorsAreReportedInPriorityOrder : Obligations.ErrorsAreReportedInPriorityOrder := by
  intro s c
  change CompletesWith _ s (execCommand c s)
  cases hl : legal c with
  | false =>
    rw [execCommand_of_not_legal hl]
    exact raise_completesWith .illegal s
  | true =>
    obtain ⟨i, hi⟩ := decodeCmd_isOk_of_legal hl
    obtain ⟨hwf, rfl⟩ := wellFormed_and_encode_of_decodeCmd_ok hi
    have hcode := exec_completesWith hwf s
    rw [reportedStatus_eq] at hcode
    rw [execCommand_of_ok hi]
    exact hcode

end Sys2Proof.Machine
end

section
/-! SUPPORT. Decode and encode agree (R33, R37). -/

namespace Sys2Proof

/-! ## O1, O2, O6 -/

/-- Settles O1: OP of the word selects the layout that the operands were written in. -/
theorem decodingTheEncodingGivesTheInstruction : Obligations.DecodingTheEncodingGivesTheInstruction :=
  fun _ => decodeCmd_encode

/-- Settles O2: the layout selected by OP determines every bit of the word. -/
theorem encodingTheDecodedInstructionGivesTheWord : Obligations.EncodingTheDecodedInstructionGivesTheWord :=
  fun _ _ => wellFormed_and_encode_of_decodeCmd_ok

/-- Settles O6: the five words are the instructions' own. -/
theorem sampleWordsDecodeAsR33LaysThemOut : Obligations.SampleWordsDecodeAsR33LaysThemOut :=
  ⟨rfl, rfl, rfl, rfl, rfl⟩

end Sys2Proof
end

section
/-! SUPPORT. What one step can do, said once, and what that makes of a run. -/

namespace Sys2Proof.Machine

variable {s t : State}

/-! One equation for each thing the host's next slot can ask. -/

theorem step_nil (h : s.host = []) : step s = .next s := by
  rw [step, nextEvent_nil h]

theorem step_conflict {slot : Slot} {rest : List Slot} (h : s.host = slot :: rest)
    (hc : 2 ≤ slot.issued.length) : step s = .refused .concurrentHosts := by
  rw [step, nextEvent_conflict h hc]

theorem step_reset {issued : List Command} {rest : List Slot}
    (h : s.host = { rst := true, issued := issued } :: rest) (hc : issued.length ≤ 1) :
    step s = .next (resetBlock (s.nextSlot rest)) := by
  rw [step, nextEvent_reset h hc]

theorem step_empty {rest : List Slot} (h : s.host = { rst := false, issued := [] } :: rest) :
    step s = .next (s.nextSlot rest) := by
  rw [step, nextEvent_empty h]

theorem step_issue {c : Command} {rest : List Slot} (h : s.host = issue c :: rest) :
    step s = execCommand c.cmd ((s.nextSlot rest).sample c.din) := by
  rw [step, nextEvent_issue h]

/-- The state after the host's next slot issued `c`: the slot is taken, DIN sampled, and DOUT and STATUS are the pure
function's (R9). -/
def State.afterIssue (s : State) (c : Command) (rest : List Slot) : State :=
  ((s.nextSlot rest).sample c.din).complete (pureExec c).1 (pureExec c).2

@[simp] theorem afterIssue_result (s : State) (c : Command) (rest : List Slot) :
    (s.afterIssue c rest).result = pureExec c := rfl

@[simp] theorem afterIssue_host (s : State) (c : Command) (rest : List Slot) :
    (s.afterIssue c rest).host = rest := rfl

theorem step_issue_eq_afterIssue {c : Command} {rest : List Slot} (h : s.host = issue c :: rest) :
    step s = .next (s.afterIssue c rest) := by
  rw [step_issue h, commandsRefineThePureFunction]
  rfl

/-- The states a step can lead to, each with the shape of the host's list that leads there. -/
theorem step_next_cases (h : step s = .next t) :
    (s.host = [] ∧ t = s) ∨
    (∃ issued rest, s.host = { rst := true, issued := issued } :: rest ∧ t = resetBlock (s.nextSlot rest)) ∨
    (∃ rest, s.host = { rst := false, issued := [] } :: rest ∧ t = s.nextSlot rest) ∨
    (∃ c rest, s.host = issue c :: rest ∧ t = s.afterIssue c rest) := by
  obtain ⟨hh, -⟩ | ⟨slot, rest, hh, hc, -⟩ | ⟨issued, rest, hh, hc, -⟩ | ⟨rest, hh, -⟩ | ⟨c, rest, hh, -⟩ :=
    nextEvent_cases s
  · cases (step_nil hh).symm.trans h
    exact .inl ⟨hh, rfl⟩
  · cases (step_conflict hh hc).symm.trans h
  · cases (step_reset hh hc).symm.trans h
    exact .inr (.inl ⟨issued, rest, hh, rfl⟩)
  · cases (step_empty hh).symm.trans h
    exact .inr (.inr (.inl ⟨rest, hh, rfl⟩))
  · cases (step_issue_eq_afterIssue hh).symm.trans h
    exact .inr (.inr (.inr ⟨c, rest, hh, rfl⟩))

/-- A run's first step. -/
theorem run_succ_of_step {M : Host.Core} {s t : M.State} {n : Nat} (h : M.step s = .next t) :
    M.run (n + 1) s = M.run n t := by
  rw [Host.Core.run, h]

/-! ## O15 -/

/-- Under a single host a step answers a next state, the next slot is taken, and the host stays single (R66). -/
theorem step_of_singleHost (h : s.SingleHost) :
    ∃ t : State, step s = .next t ∧ t.SingleHost ∧ t.host = s.host.drop 1 := by
  have htail {u : State} {slot : Slot} (hh : s.host = slot :: u.host) : u.SingleHost ∧ u.host = s.host.drop 1 := by
    refine ⟨fun sl hm => h sl ?_, by rw [hh]; rfl⟩
    rw [hh]
    exact List.mem_cons_of_mem slot hm
  obtain ⟨hh, -⟩ | ⟨slot, rest, hh, hc, -⟩ | ⟨issued, rest, hh, hc, -⟩ | ⟨rest, hh, -⟩ | ⟨c, rest, hh, -⟩ :=
    nextEvent_cases s
  · exact ⟨s, step_nil hh, h, by rw [hh]; rfl⟩
  · have := h slot (by rw [hh]; exact List.mem_cons_self)
    omega
  · exact ⟨_, step_reset hh hc, htail hh⟩
  · exact ⟨_, step_empty hh, htail hh⟩
  · exact ⟨_, step_issue_eq_afterIssue hh, htail hh⟩

/-- Settles O15, by induction on the number of steps: each takes one slot and leaves a single host. -/
theorem singleHostRunsNeverStop : Obligations.SingleHostRunsNeverStop := by
  intro n
  induction n with
  | zero => exact fun s h => ⟨s, rfl, h, rfl⟩
  | succ n ih =>
    intro s h
    obtain ⟨t, hstep, ht, hhost⟩ := step_of_singleHost h
    obtain ⟨u, hrun, hu, hdrop⟩ := ih t ht
    refine ⟨u, (run_succ_of_step (M := Sys2Proof.core) hstep).trans hrun, hu, ?_⟩
    rw [hdrop, hhost, List.drop_drop, Nat.add_comm]

/-! ## O16, O17 -/

/-- The pure function's errors leave DOUT 0 (R60): it is what a command on any state with that DIN completes with. -/
theorem pureExec_error_zero (c : Command) (h : (pureExec c).2 ≠ 0) : (pureExec c).1 = 0 := by
  obtain ⟨t, ht, -, hzero, -⟩ := errorsAreReportedInPriorityOrder { State.reset with din := c.din } c.cmd
  cases (commandsRefineThePureFunction _ _).symm.trans ht
  exact hzero h

/-- Settles O16: an idle step keeps DOUT and STATUS, RST clears both, and a command leaves the pure function's result. -/
theorem stepKeepsErrorMeansZero : Obligations.StepKeepsErrorMeansZero := by
  intro s t hs h
  obtain ⟨-, rfl⟩ | ⟨_, rest, -, rfl⟩ | ⟨rest, -, rfl⟩ | ⟨c, rest, -, rfl⟩ := step_next_cases h
  · exact hs
  · exact fun _ => rfl
  · exact hs
  · exact pureExec_error_zero c

/-- Settles O17: STATUS is OK at reset. -/
theorem resetMeetsErrorMeansZero : Obligations.ResetMeetsErrorMeansZero :=
  fun h => absurd rfl h

/-! ## O11 -/

/-- Settles O11: the two idle steps change neither DOUT nor STATUS, which leaves RST and a command. -/
theorem onlyCommandsAndResetWriteTheResult : Obligations.OnlyCommandsAndResetWriteTheResult := by
  intro s t h hne
  obtain ⟨-, rfl⟩ | ⟨_, rest, hh, rfl⟩ | ⟨rest, -, rfl⟩ | ⟨c, rest, hh, rfl⟩ := step_next_cases h
  · exact absurd rfl hne
  · exact ⟨_, rest, hh, rfl, .inl rfl⟩
  · exact absurd rfl hne
  · exact ⟨_, rest, hh, afterIssue_host .., .inr ⟨c, rfl, afterIssue_result ..⟩⟩

/-! ## O12 -/

/-- Settles O12: a slot with fewer than two commands is answered by a next state, and there is no fault to answer. -/
theorem onlyConcurrentHostsAreRefused : Obligations.OnlyConcurrentHostsAreRefused := by
  refine ⟨fun s r => ⟨fun h => ?_, ?_⟩, fun s f => nomatch f⟩
  · obtain ⟨hh, -⟩ | ⟨slot, rest, hh, hc, -⟩ | ⟨issued, rest, hh, hc, -⟩ | ⟨rest, hh, -⟩ | ⟨c, rest, hh, -⟩ :=
      nextEvent_cases s
    · cases (step_nil hh).symm.trans h
    · cases (step_conflict hh hc).symm.trans h
      exact ⟨rfl, slot, rest, hh, hc⟩
    · cases (step_reset hh hc).symm.trans h
    · cases (step_empty hh).symm.trans h
    · cases (step_issue_eq_afterIssue hh).symm.trans h
  · rintro ⟨rfl, slot, rest, hh, hc⟩
    exact step_conflict hh hc

/-! ## O14 -/

/-- Settles O14, by induction on the host's commands: the first one's result stands only if there is no other. -/
theorem runShowsTheLastCommand : Obligations.RunShowsTheLastCommand := by
  intro cs
  induction cs with
  | nil => exact fun s rest h => ⟨s, rfl, h, rfl⟩
  | cons c cs ih =>
    intro s rest h
    have hstep := step_issue_eq_afterIssue (c := c) (rest := cs.map issue ++ rest) h
    obtain ⟨t, hrun, hhost, hresult⟩ := ih (s.afterIssue c (cs.map issue ++ rest)) rest (afterIssue_host ..)
    refine ⟨t, (run_succ_of_step (M := Sys2Proof.core) hstep).trans hrun, hhost, hresult.trans ?_⟩
    cases cs with
    | nil => rfl
    | cons d ds => rw [List.getLast?_cons_cons, List.getLast?_eq_some_getLast (List.cons_ne_nil d ds)]

/-! ## O8 -/

/-- The word of an instruction, numbered as the opcode table numbers its bits, is that command word (R32). -/
theorem tableCmd_toNat (c : CmdWord) : tableCmd 16 c.toNat = some c := by
  rw [tableCmd, if_pos le_rfl, Nat.mod_eq_of_lt c.isLt, BitVec.ofNat_toNat, BitVec.setWidth_eq]

/-- Settles O8: the word placed is issued with the port's own DIN, so taking its slot gives the state back. -/
theorem fetchWordRunsExactlyThatInstruction : Obligations.FetchWordRunsExactlyThatInstruction := by
  intro s i hwf
  rw [State.withFetchWord, tableCmd_toNat]
  have hstep := step_issue (issueNext_host s ⟨encode i, s.din⟩)
  exact hstep.trans (execCommand_of_ok (decodeCmd_encode hwf) s)

/-! ## O7, O9, O10 -/

/-- Settles O7: the slot that issues one command runs it with its DIN on the port. -/
theorem stepRunsTheIssuedInstruction : Obligations.StepRunsTheIssuedInstruction :=
  ⟨fun _ cmd din _ h => step_issue (c := ⟨cmd, din⟩) h,
    fun _ cmd din _ _ h hi => (step_issue (c := ⟨cmd, din⟩) h).trans (execCommand_of_ok hi _)⟩

/-- Settles O9: RST with at most one command issued clears the block, whatever the command. -/
theorem resetClearsDoutAndStatus : Obligations.ResetClearsDoutAndStatus :=
  ⟨rfl, rfl, fun _ _ _ h hc => step_reset h hc⟩

/-- Settles O10: both idle forms answer the state itself, but for the slot taken. -/
theorem idleStepsWriteNothing : Obligations.IdleStepsWriteNothing :=
  ⟨fun _ h => step_nil h, fun _ _ h => step_empty h⟩

/-! ## O18 -/

/-- Settles O18: the pure function has no argument but CMD and DIN. -/
theorem commandsSeeNoEarlierState : Obligations.CommandsSeeNoEarlierState := by
  intro s t c h
  refine ⟨_, _, commandsRefineThePureFunction s c, commandsRefineThePureFunction t c, ?_⟩
  rw [State.result, State.result, h]

/-! ## O20 -/

/-- Settles O20: a well-formed instruction completes within the frame; the only other one is an FSET whose value does not
fit, which raises ERR_ILLEGAL. -/
theorem instructionsWriteOnlyDoutAndStatus : Obligations.InstructionsWriteOnlyDoutAndStatus := by
  intro i s
  by_cases hwf : i.WellFormed
  · obtain ⟨t, ht, -, -, hframe⟩ := exec_completesWith hwf s
    exact ⟨t, ht, hframe⟩
  · cases i with
    | fset f v => exact ⟨_, exec_fset_of_not_admits hwf s, rfl⟩
    | decode | encode | patch | fget => exact absurd rfl hwf

end Sys2Proof.Machine
end

section
/-! SUPPORT. The codec's words as numbers: the value of the word DECODE builds (R45, R46), and ENCODE's range test and
magnitude in terms of the value (R47 to R50). -/

namespace Sys2Proof.Machine

/-! ## The value of a word -/

theorem val_of_not_sgn {x : Word} (h : sgn x = false) : val x = absVal x := by
  simp [val, h]

theorem abs_val (x : Word) : |val x| = absVal x := by
  unfold val
  split
  · rw [abs_neg, abs_of_nonneg (absVal_nonneg x)]
  · exact abs_of_nonneg (absVal_nonneg x)

/-- Magnitudes of 256 and more are those of a biased exponent from 135 up (R47). -/
theorem absVal_ge_256_iff (x : Word) : 256 ≤ absVal x ↔ 135 ≤ bexp x := by
  have hunits : 256 ≤ absVal x ↔ 2 ^ 157 ≤ absUnits x := by
    rw [absVal, le_div_iff₀ (by positivity), ← Nat.cast_le (α := ℚ)]
    norm_num
  have hf := frac_lt x
  rw [hunits, absUnits]
  split
  case isTrue h => omega
  case isFalse h =>
    constructor
    · intro hge
      by_contra hlt
      have hpow : (2 : Nat) ^ (bexp x - 1) ≤ 2 ^ 133 := Nat.pow_le_pow_right (by decide) (by omega)
      have : (2 ^ 23 + (frac x).toNat) * 2 ^ (bexp x - 1) < 2 ^ 24 * 2 ^ 133 :=
        Nat.mul_lt_mul_of_lt_of_le (by omega) hpow (by positivity)
      omega
    · intro hge
      have hpow : (2 : Nat) ^ 134 ≤ 2 ^ (bexp x - 1) := Nat.pow_le_pow_right (by decide) (by omega)
      calc 2 ^ 157 = 2 ^ 23 * 2 ^ 134 := by norm_num
        _ ≤ (2 ^ 23 + (frac x).toNat) * 2 ^ (bexp x - 1) := Nat.mul_le_mul (Nat.le_add_right ..) hpow

/-! ## The word of a number of sixteenths -/

/-- `f32Of16 v` is v / 16 in units of 2^-149, also for v = 0 (R45). -/
theorem absUnits_f32Of16 {v : Nat} (h : v ≤ 4096) : absUnits (f32Of16 v) = v * 2 ^ 145 := by
  by_cases h0 : v = 0
  · subst h0
    rfl
  obtain ⟨-, hb, hf⟩ := f32Of16_fields h0 h
  obtain ⟨h1, -, h3⟩ := highestBit_bounds 12 v h0 (by omega)
  rw [absUnits, if_neg (by omega), hb, hf]
  generalize highestBit 12 v = p at *
  have hlead : (2 : Nat) ^ 23 = 2 ^ p * 2 ^ (23 - p) := by rw [← pow_add]; congr 1; omega
  have hexp : (2 : Nat) ^ 145 = 2 ^ (23 - p) * 2 ^ (p + 123 - 1) := by rw [← pow_add]; congr 1; omega
  calc (2 ^ 23 + (v - 2 ^ p) * 2 ^ (23 - p)) * 2 ^ (p + 123 - 1)
      = (2 ^ p + (v - 2 ^ p)) * 2 ^ (23 - p) * 2 ^ (p + 123 - 1) := by rw [hlead, ← Nat.add_mul]
    _ = v * 2 ^ 145 := by rw [Nat.add_sub_cancel' h1, Nat.mul_assoc, hexp]

theorem sgn_f32Of16 {v : Nat} (h : v ≤ 4096) : sgn (f32Of16 v) = false := by
  by_cases h0 : v = 0
  · subst h0
    rfl
  · exact (f32Of16_fields h0 h).1

theorem val_f32Of16 {v : Nat} (h : v ≤ 4096) : val (f32Of16 v) = (v : ℚ) / 16 := by
  rw [val_of_not_sgn (sgn_f32Of16 h), absVal, absUnits_f32Of16 h]
  push_cast
  ring

theorem f32Of16_inj {v w : Nat} (hv : v ≤ 4096) (hw : w ≤ 4096) : f32Of16 v = f32Of16 w ↔ v = w := by
  refine ⟨fun h => ?_, fun h => by rw [h]⟩
  have := congrArg absUnits h
  rw [absUnits_f32Of16 hv, absUnits_f32Of16 hw] at this
  exact Nat.eq_of_mul_eq_mul_right (by positivity) this

theorem bexp_f32Of16_lt {v : Nat} (h : v ≤ 4096) : bexp (f32Of16 v) < 255 := by
  by_cases h0 : v = 0
  · subst h0
    decide
  · obtain ⟨-, hb, -⟩ := f32Of16_fields h0 h
    obtain ⟨-, -, h3⟩ := highestBit_bounds 12 v h0 (by omega)
    omega

/-- Only the zero word has biased exponent 0: nothing `f32Of16` builds is subnormal (R45). -/
theorem f32Of16_of_bexp_zero {v : Nat} (h : v ≤ 4096) (hb : bexp (f32Of16 v) = 0) : f32Of16 v = 0 := by
  by_cases h0 : v = 0
  · subst h0
    rfl
  · have := (f32Of16_fields h0 h).2.1
    omega

/-- The index of the highest 1 bit is the only one that bounds the number from both sides. -/
theorem highestBit_eq {v p : Nat} (h : v ≤ 4096) (hlo : 2 ^ p ≤ v) (hhi : v < 2 ^ (p + 1)) :
    highestBit 12 v = p := by
  have h0 : v ≠ 0 := by have := Nat.two_pow_pos p; omega
  obtain ⟨h1, h2, -⟩ := highestBit_bounds 12 v h0 (by omega)
  have hle : p < highestBit 12 v + 1 := (Nat.pow_lt_pow_iff_right (by decide)).mp (hlo.trans_lt h2)
  have hge : highestBit 12 v < p + 1 := (Nat.pow_lt_pow_iff_right (by decide)).mp (h1.trans_lt hhi)
  omega

/-! ## O26 -/

/-- Settles O26: the fields are those of the highest 1 bit, and they denote v sixteenths. -/
theorem floatOfSixteenthsIsExact : Obligations.FloatOfSixteenthsIsExact := by
  refine ⟨rfl, fun v p hv hlo hhi => ⟨?_, val_f32Of16 hv⟩⟩
  have h0 : v ≠ 0 := by have := Nat.two_pow_pos p; omega
  simp only [f32Of16, h0, if_false, highestBit_eq hv hlo hhi]
  exact BitVec.append_assoc ..

/-! ## DECODE -/

/-- DECODE always succeeds with the word of its sixteenths (R46). -/
theorem exec_decode (s : State) : exec .decode s = succeed (f32Of16 (dec16 (regWordOperand s))) s := rfl

theorem signFlag_regWordOperand (s : State) : signFlag (regWordOperand s) = s.din.getLsbD 12 := by
  simp [signFlag, regWordOperand]

theorem magnitude_regWordOperand (s : State) : magnitude (regWordOperand s) = (s.din.extractLsb' 0 12).toNat := by
  simp [magnitude, regWordOperand]

/-- The sixteenths DECODE reads from DIN (R44). -/
theorem dec16_regWordOperand (s : State) :
    dec16 (regWordOperand s) =
      if s.din.getLsbD 12 then 4096 - (s.din.extractLsb' 0 12).toNat else (s.din.extractLsb' 0 12).toNat := by
  rw [dec16, signFlag_regWordOperand, magnitude_regWordOperand]

/-! ## O23 -/

/-- Settles O23: the sixteenths of R44 are built exactly. -/
theorem decodeIsExact : Obligations.DecodeIsExact := by
  intro s
  have hle := dec16_le (regWordOperand s)
  refine ⟨_, exec_decode s, rfl, ?_, ?_, sgn_f32Of16 hle, f32Of16_of_bexp_zero hle⟩
  · have hmag : (s.din.extractLsb' 0 12).toNat ≤ 4096 := (s.din.extractLsb' 0 12).isLt.le
    rw [complete_dout, val_f32Of16 hle, dec16_regWordOperand]
    split
    · push_cast [hmag]
      ring
    · rfl
  · exact decide_eq_true (bexp_f32Of16_lt hle).ne

/-! ## O24 -/

/-- Settles O24: the magnitude is below 4096 sixteenths. -/
theorem decodeResultRange : Obligations.DecodeResultRange := by
  intro s
  obtain ⟨t, ht, -, hval, -⟩ := decodeIsExact s
  have hmag : ((s.din.extractLsb' 0 12).toNat : ℚ) ≤ 4095 := by
    exact_mod_cast Nat.le_of_lt_succ (s.din.extractLsb' 0 12).isLt
  have hnn : (0 : ℚ) ≤ (s.din.extractLsb' 0 12).toNat := Nat.cast_nonneg _
  refine ⟨t, ht, fun h => ?_, fun h => ?_⟩ <;>
  · simp only [h, if_true, Bool.false_eq_true, if_false] at hval
    rw [hval]
    constructor <;> linarith

/-! ## O25 -/

/-- Bits 12:0 are the sign flag and the magnitude (R15). -/
theorem low13_eq_iff (x y : Word) :
    x.extractLsb' 0 13 = y.extractLsb' 0 13 ↔
      x.getLsbD 12 = y.getLsbD 12 ∧ (x.extractLsb' 0 12).toNat = (y.extractLsb' 0 12).toNat := by
  have hsplit (z : Word) : (z.extractLsb' 0 13).toNat =
      4096 * (z.getLsbD 12).toNat + (z.extractLsb' 0 12).toNat := by
    simp [BitVec.getLsbD, Nat.toNat_testBit]
    omega
  constructor
  · intro h
    have hflag : (x.extractLsb' 0 13).getLsbD 12 = (y.extractLsb' 0 13).getLsbD 12 := by rw [h]
    have hmag : (x.extractLsb' 0 13).toNat % 4096 = (y.extractLsb' 0 13).toNat % 4096 := by rw [h]
    have hx := (x.extractLsb' 0 12).isLt
    have hy := (y.extractLsb' 0 12).isLt
    rw [hsplit, hsplit] at hmag
    exact ⟨by simpa using hflag, by omega⟩
  · rintro ⟨hflag, hmag⟩
    rw [← BitVec.toNat_inj, hsplit, hsplit, hflag, hmag]

/-- Settles O25: the words built are equal exactly when the sixteenths are. -/
theorem decodeAliases : Obligations.DecodeAliases := by
  intro s t
  refine ⟨_, _, exec_decode s, exec_decode t, ?_⟩
  have hs := (s.din.extractLsb' 0 12).isLt
  have ht := (t.din.extractLsb' 0 12).isLt
  rw [complete_dout, complete_dout, f32Of16_inj (dec16_le _) (dec16_le _), low13_eq_iff, dec16_regWordOperand,
    dec16_regWordOperand]
  by_cases hflag : s.din.getLsbD 12 = t.din.getLsbD 12
  · simp only [hflag, true_and, ne_eq, not_true_eq_false, false_and, or_false]
    split <;> omega
  · simp only [Bool.eq_not_of_ne hflag, Bool.not_eq_self, ne_eq, not_false_eq_true, false_and, true_and, false_or]
    cases t.din.getLsbD 12 <;> simp <;> omega

/-! ## ENCODE -/

/-- In range the quarters are the value's quarters, truncated (R48). -/
theorem quarters_eq_absUnits_div {x : Word} (h : bexp x < 135) : (quarters x).toNat = absUnits x / 2 ^ 147 := by
  have hf := frac_lt x
  rw [quarters_toNat, absUnits, encodeShift]
  split
  case isTrue h0 => rw [h0, Nat.div_eq_of_lt (by omega), Nat.div_eq_of_lt (by omega)]
  case isFalse h0 =>
    have hexp : (2 : Nat) ^ 147 = 2 ^ (148 - bexp x) * 2 ^ (bexp x - 1) := by rw [← pow_add]; congr 1; omega
    rw [hexp, Nat.mul_div_mul_right _ _ (by positivity)]

theorem quarters_eq_floor {x : Word} (h : bexp x < 135) : ((quarters x).toNat : ℤ) = ⌊4 * absVal x⌋ := by
  have hq : 4 * absVal x = (absUnits x : ℚ) / ((2 ^ 147 : ℕ) : ℚ) := by
    rw [absVal]
    push_cast
    ring
  rw [hq, Rat.floor_natCast_div_natCast, quarters_eq_absUnits_div h]
  rfl

theorem magnitude_encodedWord {x : Word} (h : bexp x < 135) : magnitude (encodedWord x) = 4 * (quarters x).toNat := by
  rw [magnitude, encodedWord, BitVec.extractLsb'_append_eq_right, mag12_toNat x (by omega)]

theorem signFlag_encodedWord (x : Word) : signFlag (encodedWord x) = neg x := by
  rw [signFlag, encodedWord, BitVec.getLsbD_append, BitVec.getLsbD_append]
  simp

/-! ## O28 -/

/-- Settles O28: a biased exponent of 135 or more is an infinity, a NaN or a magnitude from 256 up. -/
theorem encodeRangeErrorExactly : Obligations.EncodeRangeErrorExactly := by
  intro s
  have hrange : (finite s.din = false ∨ 256 ≤ |val s.din|) ↔ 135 ≤ bexp s.din := by
    rw [abs_val, absVal_ge_256_iff, finite, decide_eq_false_iff_not]
    omega
  rw [hrange]
  by_cases h : 135 ≤ bexp s.din
  · exact ⟨_, exec_encode_of_ge h, iff_of_true rfl h, fun hne => absurd rfl hne⟩
  · exact ⟨_, exec_encode_of_lt (not_le.mp h), iff_of_false (show (0 : StatusWord) ≠ 1 by decide) h, fun _ => rfl⟩

/-! ## O30 -/

theorem bexp_lt_of_abs_val_lt {x : Word} (h : |val x| < 256) : bexp x < 135 := by
  rwa [abs_val, ← not_le, absVal_ge_256_iff, not_le] at h

/-- The flags 15:13 of ENCODE's register word are 0 (R50). -/
theorem encodedWord_toNat_lt (x : Word) : (encodedWord x).toNat < 2 ^ 13 := by
  have h : encodedWord x = (BitVec.ofBool (neg x) ++ mag12 x).setWidth 16 := by
    rw [encodedWord, BitVec.append_assoc, BitVec.setWidth_eq_append (by decide)]
  rw [h, BitVec.toNat_setWidth_of_le (by decide)]
  exact (BitVec.ofBool (neg x) ++ mag12 x).isLt

/-- Settles O30: the quarters are the floor of 4 |val|, and the sign flag is the sign of the value. -/
theorem encodeTruncatesToQuarters : Obligations.EncodeTruncatesToQuarters := by
  intro s _ hlt
  have hb := bexp_lt_of_abs_val_lt hlt
  refine ⟨_, exec_encode_of_lt hb, rfl, ?_, ?_, ?_⟩
  · have hmag : (((encodedWord s.din).setWidth 32).extractLsb' 0 12).toNat = magnitude (encodedWord s.din) := by
      simp [magnitude]
    rw [abs_val, ← quarters_eq_floor hb, complete_dout, hmag, magnitude_encodedWord hb]
    push_cast
    rfl
  · have hflag : ((encodedWord s.din).setWidth 32).getLsbD 12 = signFlag (encodedWord s.din) := by
      simp [signFlag]
    rw [complete_dout, hflag, signFlag_encodedWord, neg_eq_true_iff_val_neg]
  · have hw := encodedWord_toNat_lt s.din
    apply BitVec.eq_of_toNat_eq
    simp [Nat.shiftRight_eq_div_pow]
    omega

/-! ## O31, O32: ENCODE, then DECODE of its result -/

/-- The sixteenths of ENCODE's register word (R44, R50). -/
theorem dec16_encodedWord {x : Word} (h : bexp x < 135) :
    dec16 (encodedWord x) = if neg x then 4096 - 4 * (quarters x).toNat else 4 * (quarters x).toNat := by
  rw [dec16, signFlag_encodedWord, magnitude_encodedWord h]

theorem regWordOperand_of_din {s : State} {w : RegWord} (h : s.din = w.setWidth 32) : regWordOperand s = w := by
  rw [regWordOperand, h, ← BitVec.setWidth_eq_extractLsb' (by decide), BitVec.setWidth_setWidth_of_le _ (by decide),
    BitVec.setWidth_eq]

/-- In range ENCODE completes, and so does DECODE of its result, with the value of the quarters or their complement to
256. -/
theorem decode_encode_value {s : State} (h : bexp s.din < 135) :
    ∃ t u : State, exec .encode s = .next t ∧ t.status = 0 ∧ exec .decode { t with din := t.dout } = .next u ∧
      val u.dout = if val s.din < 0 then 256 - (⌊4 * absVal s.din⌋ : ℚ) / 4 else (⌊4 * absVal s.din⌋ : ℚ) / 4 := by
  refine ⟨_, _, exec_encode_of_lt h, rfl, exec_decode _, ?_⟩
  have hq := quarters_lt s.din (by omega)
  rw [complete_dout, val_f32Of16 (dec16_le _), regWordOperand_of_din rfl, dec16_encodedWord h, ← quarters_eq_floor h]
  simp only [neg_eq_true_iff_val_neg]
  split
  · rw [Nat.cast_sub (by omega)]
    push_cast
    ring
  · push_cast
    ring

/-- Settles O31: the quarters' value is the floor itself, and a floor is below its number by less than 1. -/
theorem nonNegativeRoundTrip : Obligations.NonNegativeRoundTrip := by
  intro s _ hnn hlt
  have hval : absVal s.din = val s.din := by rw [← abs_val, abs_of_nonneg hnn]
  have hb : bexp s.din < 135 := bexp_lt_of_abs_val_lt (by rwa [abs_of_nonneg hnn])
  obtain ⟨t, u, ht, hok, hu, hdec⟩ := decode_encode_value hb
  rw [if_neg (not_lt.mpr hnn), hval] at hdec
  have hfloor := Int.floor_le (4 * val s.din)
  have hceil := Int.lt_floor_add_one (4 * val s.din)
  refine ⟨t, u, ht, hok, hu, hdec, by linarith, by linarith, ?_⟩
  rintro ⟨k, hk⟩
  have h4 : 4 * val s.din = (k : ℚ) := by rw [hk]; ring
  rw [hdec, h4, Int.floor_intCast, hk]

/-- Settles O32: the quarters come back as their complement to 256, which is above 0. -/
theorem negativeRoundTrip : Obligations.NegativeRoundTrip := by
  intro s _ hgt hneg
  have hb : bexp s.din < 135 := bexp_lt_of_abs_val_lt (by rw [abs_of_neg hneg]; linarith)
  obtain ⟨t, u, ht, hok, hu, hdec⟩ := decode_encode_value hb
  rw [if_pos hneg, ← abs_val] at hdec
  have hfloor := Int.floor_le (4 * |val s.din|)
  have habs := abs_of_neg hneg
  refine ⟨t, u, ht, hok, hu, hdec, ne_of_gt ?_⟩
  linarith

/-! ## O33, O34: DECODE, then ENCODE of its result -/

/-- The word of a multiple of four sixteenths below 256 encodes to that multiple, with no flag. -/
theorem encodedWord_f32Of16 {v : Nat} (hv : v < 4096) (h4 : v % 4 = 0) :
    bexp (f32Of16 v) < 135 ∧ ((encodedWord (f32Of16 v)).setWidth 32).toNat = v := by
  have hval := val_f32Of16 hv.le
  have hnn : 0 ≤ val (f32Of16 v) := by rw [hval]; positivity
  have hb : bexp (f32Of16 v) < 135 := by
    have : (v : ℚ) < 4096 := by exact_mod_cast hv
    apply bexp_lt_of_abs_val_lt
    rw [abs_of_nonneg hnn, hval]
    linarith
  have hneg : neg (f32Of16 v) ≠ true := mt (neg_eq_true_iff_val_neg _).mp (not_lt.mpr hnn)
  have hq : (quarters (f32Of16 v)).toNat = v / 4 := by
    rw [quarters_eq_absUnits_div hb, absUnits_f32Of16 hv.le]
    omega
  refine ⟨hb, ?_⟩
  rw [← sign_add_mag12, if_neg hneg, zero_add, BitVec.toNat_setWidth_of_le (by decide), mag12_toNat _ (by omega),
    hq]
  omega

/-- Below 256, DECODE then ENCODE of a multiple of four sixteenths complete with those sixteenths. -/
theorem encode_decode_lt {s : State} {v : Nat} (hd : dec16 (regWordOperand s) = v) (hv : v < 4096) (h4 : v % 4 = 0) :
    ∃ t u : State, exec .decode s = .next t ∧ exec .encode { t with din := t.dout } = .next u ∧
      u.status = 0 ∧ u.dout.toNat = v := by
  obtain ⟨hb, hword⟩ := encodedWord_f32Of16 hv h4
  refine ⟨s.complete (f32Of16 v) 0, _, hd ▸ exec_decode s, exec_encode_of_lt hb, rfl, hword⟩

/-- The sign flag is the lowest bit of the flags 15:12 (R15). -/
theorem getLsbD_12_eq (x : Word) : x.getLsbD 12 = (x.extractLsb' 12 4).getLsbD 0 := by
  simp

/-- A register word on the 1/4 grid (bits 1:0 zero) has a magnitude of whole quarters (R15). -/
theorem magnitude_mod_four {x : Word} (h : x.extractLsb' 0 2 = 0) : (x.extractLsb' 0 12).toNat % 4 = 0 := by
  have hmod : x.toNat % 4 = 0 := by simpa using congrArg BitVec.toNat h
  simp
  omega

/-- Settles O33: with the sign flag clear the sixteenths are the word itself. -/
theorem signClearWordsComeBack : Obligations.SignClearWordsComeBack := by
  intro s hflags hgrid
  have hd : dec16 (regWordOperand s) = (s.din.extractLsb' 0 12).toNat := by
    rw [dec16_regWordOperand, getLsbD_12_eq, hflags]
    rfl
  obtain ⟨t, u, ht, hu, hok, hdout⟩ := encode_decode_lt hd (s.din.extractLsb' 0 12).isLt (magnitude_mod_four hgrid)
  refine ⟨t, u, ht, hu, hok, BitVec.eq_of_toNat_eq (hdout.trans ?_)⟩
  have hzero : s.din.toNat / 4096 % 16 = 0 := by
    simpa [Nat.shiftRight_eq_div_pow] using congrArg BitVec.toNat hflags
  simp
  omega

/-- Settles O34: with the sign flag set the sixteenths are the complement to 4096, which is 256 for magnitude 0. -/
theorem signSetWordsComeBackComplemented : Obligations.SignSetWordsComeBackComplemented := by
  intro s hflags hgrid
  have hd : dec16 (regWordOperand s) = 4096 - (s.din.extractLsb' 0 12).toNat := by
    rw [dec16_regWordOperand, getLsbD_12_eq, hflags]
    rfl
  by_cases h0 : s.din.extractLsb' 0 12 = 0
  · have hrange : 135 ≤ bexp (f32Of16 4096) := by decide
    have hd256 : dec16 (regWordOperand s) = 4096 := by rw [hd, h0]; rfl
    exact ⟨s.complete (f32Of16 4096) 0, _, hd256 ▸ exec_decode s, exec_encode_of_ge hrange, fun hne => absurd h0 hne,
      fun _ => ⟨rfl, rfl⟩⟩
  · have hpos : (s.din.extractLsb' 0 12).toNat ≠ 0 := fun h => h0 (BitVec.eq_of_toNat_eq h)
    have hmod := magnitude_mod_four hgrid
    obtain ⟨t, u, ht, hu, hok, hdout⟩ := encode_decode_lt hd (by omega) (by omega)
    exact ⟨t, u, ht, hu, fun _ => ⟨hok, hdout⟩, fun h => absurd h h0⟩

end Sys2Proof.Machine
end

section
/-! SUPPORT. The packer's laws on bytes (R58), and the words and DIN of the controller's commands (R43). -/

namespace Sys2Proof.Machine

/-! ## Bytes on DOUT and DIN -/

theorem lowByte_setWidth (b : Byte) : (b.setWidth 32).extractLsb' 0 8 = b := by
  rw [← BitVec.setWidth_eq_extractLsb' (by decide), BitVec.setWidth_setWidth_of_le _ (by decide), BitVec.setWidth_eq]

/-- The low byte of a DIN word, widened again. -/
theorem lowByte_widened (din : Word) : (din.extractLsb' 0 8).setWidth 32 = din &&& 0xFF := by
  rw [← and_0xFF_eq, BitVec.setWidth_eq]

/-! ## O40 -/

/-- Clearing what has just been set is clearing it: every other bit is kept (R58, law 6). -/
theorem patchByte_clear_set (mask cur : Byte) : patchByte false mask (patchByte true mask cur) = cur &&& ~~~mask := by
  ext i hi
  simp only [← BitVec.getLsbD_eq_getElem, patchByte_bit, BitVec.getLsbD_and, BitVec.getLsbD_not]
  cases mask.getLsbD i <;> simp [hi]

/-- Settles O40: PATCH merges one byte under its mask, so twice is once and the rest is kept. -/
theorem patchLaws : Obligations.PatchLaws := by
  refine ⟨fun set mask s => ⟨_, _, rfl, rfl, ?_, ?_⟩, fun s => ⟨_, _, rfl, rfl, ?_⟩⟩
  · simp only [complete_dout, byteOperand, lowByte_setWidth, patchByte, mergeBits_idem]
  · rw [complete_dout, lowByte_setWidth]
    exact mergeBits_outside ..
  · simp only [complete_dout, byteOperand, lowByte_setWidth, patchByte_clear_set]
    rw [BitVec.setWidth_and, lowByte_widened, BitVec.and_assoc]
    rfl

/-! ## O41 -/

/-- What has been merged is found under the mask. -/
theorem mergeBits_and_mask (cur mask new : Byte) : mergeBits cur mask new &&& mask = new &&& mask := by
  ext i hi
  simp only [← BitVec.getLsbD_eq_getElem, BitVec.getLsbD_and, mergeBits_bit]
  cases mask.getLsbD i <;> simp

/-- Merging bits that are there already changes nothing. -/
theorem mergeBits_self (cur mask : Byte) : mergeBits cur mask (cur &&& mask) = cur := by
  ext i hi
  simp only [← BitVec.getLsbD_eq_getElem, mergeBits_bit, BitVec.getLsbD_and]
  cases mask.getLsbD i <;> simp

/-- A VAL that fits is not cut where the field lies (R57). -/
theorem placed_ushiftRight (f : Field) {v : BitVec 2} (h : f.admits v = true) :
    (v.setWidth 8 <<< f.shift) >>> f.shift = v.setWidth 8 := by
  revert v
  cases f <;> decide

/-- FGET after FSET gives the value set (R58, law 4). -/
theorem getField_setFieldByte (f : Field) {v : BitVec 2} (h : f.admits v = true) (cur : Byte) :
    getField f (setFieldByte f v cur) = v.setWidth 8 := by
  rw [getField, setFieldByte, mergeBits_and_mask, placed_and_mask f h, placed_ushiftRight f h]

/-- No mask has a bit below its field's shift, so shifting a field out and back restores it (R54). -/
theorem getField_shiftLeft (f : Field) (cur : Byte) : getField f cur <<< f.shift = cur &&& f.mask := by
  have hmask : f.mask &&& (BitVec.allOnes 8 <<< f.shift) = f.mask := by cases f <;> rfl
  rw [getField, BitVec.shiftLeft_ushiftRight, BitVec.and_assoc, hmask]

/-- FGET's byte fits its field (R56). -/
theorem getField_lt_two_pow_width (f : Field) (cur : Byte) : (getField f cur).toNat < 2 ^ f.width := by
  rw [getField, BitVec.ushiftRight_and_distrib, BitVec.toNat_and]
  refine Nat.and_le_right.trans_lt ?_
  cases f <;> decide

/-- FGET's result as a VAL: it fits, and no bit is lost (R56, R57). -/
theorem getField_as_val (f : Field) (cur : Byte) :
    f.admits ((getField f cur).extractLsb' 0 2) = true ∧
    ((getField f cur).extractLsb' 0 2).setWidth 8 = getField f cur := by
  have h4 := getField_lt_four f cur
  have hval : ((getField f cur).extractLsb' 0 2).toNat = (getField f cur).toNat := by
    simpa using h4
  refine ⟨decide_eq_true ?_, BitVec.eq_of_toNat_eq ?_⟩
  · rw [hval]
    exact getField_lt_two_pow_width f cur
  · rw [BitVec.toNat_setWidth_of_le (by decide), hval]

/-- FSET of the value FGET reads gives the byte back (R58, law 5). -/
theorem setFieldByte_getField (f : Field) (cur : Byte) :
    setFieldByte f ((getField f cur).extractLsb' 0 2) cur = cur := by
  rw [setFieldByte, (getField_as_val f cur).2, getField_shiftLeft, mergeBits_self]

/-- FGET's low two bits on DOUT are those of its byte. -/
theorem lowTwo_setWidth (b : Byte) : (b.setWidth 32).extractLsb' 0 2 = b.extractLsb' 0 2 :=
  BitVec.extractLsb'_setWidth_of_le (by decide)

/-- Settles O41: FSET merges the placed value under its field's mask, and FGET takes it out again. -/
theorem fsetAndFgetLaws : Obligations.FsetAndFgetLaws := by
  refine ⟨fun f v s hf hv => ⟨_, _, exec_fset_of_writable hv hf s, rfl, ?_, rfl, ?_⟩,
    fun f s hf => ⟨_, s.complete ((byteOperand s).setWidth 32) 0, rfl, ?_, rfl, lowByte_widened s.din⟩⟩
  · rw [complete_dout, lowByte_setWidth]
    exact mergeBits_outside ..
  · rw [complete_dout, byteOperand, complete_dout, lowByte_setWidth, getField_setFieldByte f hv,
      BitVec.setWidth_setWidth (by decide)]
  · have hset := exec_fset_of_writable (getField_as_val f (byteOperand s)).1 hf s
    rw [setFieldByte_getField] at hset
    rw [complete_dout, lowTwo_setWidth]
    exact hset

/-! ## O39 -/

/-- A 1-bit field's value, placed, is the field's mask or nothing (R54, R57). -/
theorem placed_bit {f : Field} (hh : f ≠ .hyst) (hr : f ≠ .res) (b : Bool) :
    (if b then 1 else 0 : BitVec 2).setWidth 8 <<< f.shift = if b then f.mask else 0 := by
  have hmask : f.mask = (1 : Byte) <<< f.shift := by
    rw [mask_eq_shifted_ones, width_eq, if_neg (not_or.mpr ⟨hh, hr⟩)]
    rfl
  rw [hmask]
  cases b
  · exact BitVec.zero_shiftLeft _
  · rfl

/-- Settles O39: both merge the same bits under the field's mask. -/
theorem oneBitFsetIsPatch : Obligations.OneBitFsetIsPatch := by
  intro f b s hf hh hr
  have hfits : f.admits (if b then 1 else 0) = true :=
    (admits_iff ..).mpr (.inr (.inr (by cases b <;> decide)))
  rw [exec_fset_of_writable hfits hf, setFieldByte, placed_bit hh hr]
  rfl

/-! ## O42 -/

/-- The command of a well-formed instruction is legal (R37). -/
theorem legal_command {i : Instr} (h : i.WellFormed) (din : Word) : legal (command i din).cmd = true :=
  legal_encode h

/-- Every command of a controller operation is the word of a well-formed instruction (R43). -/
theorem legal_of_mem_commands (op : ControllerOp) {c : Command} (h : c ∈ op.commands) : legal c.cmd = true := by
  cases op with
  | getManufactureId | getId | initialise | setDeviceAddress => cases h
  | setWindowTemperature | getWindowTemperature =>
    obtain rfl | rfl := List.mem_pair.mp h <;> exact legal_command rfl _
  | setHysteresis v =>
    obtain rfl := List.mem_singleton.mp h
    exact legal_command (i := .fset .hyst v) ((admits_iff .hyst v).mpr (.inl rfl)) _
  | setResolution v =>
    obtain rfl := List.mem_singleton.mp h
    exact legal_command (i := .fset .res v) ((admits_iff .res v).mpr (.inr (.inl rfl))) _
  | _ =>
    obtain rfl := List.mem_singleton.mp h
    exact legal_command rfl _

/-- FSET's words for the two 2-bit fields, as sums (R43). -/
theorem encode_fset_hyst (v : BitVec 2) : encode (.fset .hyst v) = 0x5008 + 0x0010 * v.setWidth 16 := by
  revert v
  decide

theorem encode_fset_res (v : BitVec 2) : encode (.fset .res v) = 0x5009 + 0x0010 * v.setWidth 16 := by
  revert v
  decide

/-- A command on a register byte, its word written out. -/
theorem command_byte {i : Instr} {c : CmdWord} (h : encode i = c) (b : Byte) :
    [command i (b.setWidth 32)] = [⟨c, 0#24 ++ b⟩] := by
  rw [command, h, BitVec.setWidth_eq_append (by decide)]
  rfl

/-- DECODE of a register word, the command word written out. -/
theorem command_decode (w : RegWord) : command .decode (w.setWidth 32) = ⟨0x1000, 0#16 ++ w⟩ := by
  rw [command, BitVec.setWidth_eq_append (by decide)]
  rfl

/-- Settles O42: the words are those of R33's layouts, and DIN is the byte or register word with zeros above. -/
theorem controllerOperationsIssueTheirCommands : Obligations.ControllerOperationsIssueTheirCommands := by
  refine ⟨fun w => congrArg (fun c => [c]) (command_decode w), fun _ => rfl,
    fun w => congrArg (fun c => [c]) (command_decode w), fun _ _ => rfl,
    fun u l => congrArg₂ (fun c d => [c, d]) (command_decode u) (command_decode l), fun b => ?_, fun bit b => ?_,
    fun b => ⟨command_byte rfl b, command_byte rfl b⟩,
    fun v b => ⟨command_byte (encode_fset_hyst v) b, command_byte (encode_fset_res v) b⟩,
    ⟨rfl, rfl, rfl, rfl⟩, fun op _ => legal_of_mem_commands op⟩
  · exact ⟨command_byte rfl b, command_byte rfl b, command_byte rfl b, command_byte rfl b, command_byte rfl b,
      command_byte rfl b, command_byte rfl b, command_byte rfl b⟩
  · cases bit <;> exact ⟨command_byte rfl b, command_byte rfl b, command_byte rfl b⟩

end Sys2Proof.Machine
end

section
/-! SUPPORT. The magnitudes of binary32 as one increasing sequence: a word's bits 30:0, read as a number k, name the k-th
magnitude (R8). -/

namespace Sys2Proof.Machine

/-- Bits 30:0 of a word, as a number: the biased exponent and the fraction (R8). -/
def magNumber (x : Word) : Nat := x.toNat % 2 ^ 31

/-- The `k`-th magnitude in units of 2^-149 (R8), continued beyond the finite ones. -/
def magUnits (k : Nat) : Nat :=
  if k / 2 ^ 23 = 0 then k % 2 ^ 23 else (2 ^ 23 + k % 2 ^ 23) * 2 ^ (k / 2 ^ 23 - 1)

theorem absUnits_eq_magUnits (x : Word) : absUnits x = magUnits (magNumber x) := by
  have he : x.toNat % 2 ^ 31 / 2 ^ 23 = x.toNat / 2 ^ 23 % 256 := by omega
  have hf : x.toNat % 2 ^ 31 % 2 ^ 23 = x.toNat % 2 ^ 23 := by omega
  rw [absUnits, magUnits, magNumber, bexp_eq, frac_eq, he, hf]

theorem absVal_eq_magUnits (x : Word) : absVal x = (magUnits (magNumber x) : ℚ) / 2 ^ 149 := by
  rw [absVal, absUnits_eq_magUnits]

/-- A 24-bit significand `m` at scale 2^t is the magnitude number `t * 2^23 + m`; a carry to 2^24 moves into the exponent. -/
theorem magUnits_placed {t m : Nat} (hm : m ≤ 2 ^ 24) (ht : t = 0 ∨ 2 ^ 23 ≤ m) :
    magUnits (t * 2 ^ 23 + m) = m * 2 ^ t := by
  unfold magUnits
  rcases lt_or_ge m (2 ^ 23) with hsub | hnorm
  · obtain rfl : t = 0 := by omega
    rw [if_pos (by omega)]
    omega
  rw [if_neg (by omega)]
  rcases hm.lt_or_eq with hlt | rfl
  · have he : (t * 2 ^ 23 + m) / 2 ^ 23 - 1 = t := by omega
    have hf : 2 ^ 23 + (t * 2 ^ 23 + m) % 2 ^ 23 = m := by omega
    rw [he, hf]
  · have he : (t * 2 ^ 23 + 2 ^ 24) / 2 ^ 23 - 1 = t + 1 := by omega
    have hf : 2 ^ 23 + (t * 2 ^ 23 + 2 ^ 24) % 2 ^ 23 = 2 ^ 23 := by omega
    rw [he, hf, pow_succ]
    ring

/-- Every number is a significand below 2^24 at some scale. -/
theorem exists_placed (k : Nat) : ∃ t m, k = t * 2 ^ 23 + m ∧ m < 2 ^ 24 ∧ (t = 0 ∨ 2 ^ 23 ≤ m) := by
  rcases lt_or_ge k (2 ^ 23) with h | h
  · exact ⟨0, k, by omega, by omega, .inl rfl⟩
  · exact ⟨k / 2 ^ 23 - 1, 2 ^ 23 + k % 2 ^ 23, by omega, by omega, .inr (by omega)⟩

/-- The magnitudes increase with their numbers. -/
theorem magUnits_strictMono : StrictMono magUnits := by
  refine strictMono_nat_of_lt_succ fun k => ?_
  obtain ⟨t, m, rfl, hm, ht⟩ := exists_placed k
  rw [magUnits_placed hm.le ht, Nat.add_assoc, magUnits_placed hm (by omega)]
  exact Nat.mul_lt_mul_of_pos_right (Nat.lt_succ_self m) (by positivity)

/-- The finite words are those below the infinity's number (R8). -/
theorem finite_iff (x : Word) : finite x = true ↔ magNumber x < 0x7F800000 := by
  have hx := x.isLt
  rw [finite, decide_eq_true_iff, bexp_eq, magNumber]
  omega

/-- A word is its sign and its magnitude (R8). -/
theorem word_eq_of_sgn_of_absVal {x y : Word} (hs : sgn x = sgn y) (hv : absVal x = absVal y) : x = y := by
  have hunits : magUnits (magNumber x) = magUnits (magNumber y) := by
    rw [absVal_eq_magUnits, absVal_eq_magUnits] at hv
    exact_mod_cast (div_left_inj' (by positivity)).mp hv
  have hm : x.toNat % 2 ^ 31 = y.toNat % 2 ^ 31 := magUnits_strictMono.injective hunits
  rw [sgn_eq, sgn_eq, decide_eq_decide] at hs
  have hx := x.isLt
  have hy := y.isLt
  apply BitVec.eq_of_toNat_eq
  omega

/-! ## A magnitude's number with a sign -/

/-- The word with the given sign bit and bits 30:0. -/
def signedWord (negative : Bool) (k : Nat) : Word := (if negative then 0x80000000 else 0) ||| BitVec.ofNat 32 k

theorem signedWord_toNat (negative : Bool) {k : Nat} (h : k < 2 ^ 31) :
    (signedWord negative k).toNat = (if negative then 2 ^ 31 else 0) + k := by
  have hk : (BitVec.ofNat 32 k).toNat = k := by
    rw [BitVec.toNat_ofNat]
    omega
  rw [signedWord, BitVec.toNat_or, hk]
  cases negative
  · exact (Nat.zero_or k).trans (Nat.zero_add k).symm
  · exact (Nat.two_pow_add_eq_or_of_lt h 1).symm

theorem sgn_signedWord (negative : Bool) {k : Nat} (h : k < 2 ^ 31) : sgn (signedWord negative k) = negative := by
  rw [sgn_eq, signedWord_toNat negative h]
  cases negative
  · exact decide_eq_false (by simp only [Bool.false_eq_true, if_false]; omega)
  · exact decide_eq_true (Nat.le_add_right ..)

theorem magNumber_signedWord (negative : Bool) {k : Nat} (h : k < 2 ^ 31) :
    magNumber (signedWord negative k) = k := by
  rw [magNumber, signedWord_toNat negative h]
  split <;> omega

theorem getLsbD_zero_eq (x : Word) : x.getLsbD 0 = decide (magNumber x % 2 = 1) := by
  rw [magNumber, BitVec.getLsbD, Nat.testBit_zero, decide_eq_decide]
  omega

end Sys2Proof.Machine
end

section
/-! SUPPORT. The assembler's rounding (R41): it takes the nearest of the two magnitudes around the fraction, the one with the
even number where both are equally near. -/

namespace Sys2Proof.Machine

/-- `b` is the number of the magnitude nearest to `u`, the even one of two: of the magnitudes `k` and `k + 1` around `u`, the
one on `u`'s side of their midpoint. -/
def RoundsTo (u : ℚ) (b : Nat) : Prop :=
  ∃ k, (magUnits k : ℚ) ≤ u ∧ u < magUnits (k + 1) ∧
    ((b = k ∧ (2 * u < magUnits k + magUnits (k + 1) ∨ (2 * u = magUnits k + magUnits (k + 1) ∧ k % 2 = 0))) ∨
     (b = k + 1 ∧ ((magUnits k + magUnits (k + 1) : ℚ) < 2 * u ∨ (2 * u = magUnits k + magUnits (k + 1) ∧ k % 2 = 1))))

/-- No magnitude is nearer, and where another one is as near the number is even. -/
theorem RoundsTo.nearest {u : ℚ} {b : Nat} (h : RoundsTo u b) (j : Nat) :
    |(magUnits b : ℚ) - u| ≤ |(magUnits j : ℚ) - u| ∧
    (|(magUnits b : ℚ) - u| = |(magUnits j : ℚ) - u| → (magUnits j : ℚ) ≠ magUnits b → b % 2 = 0) := by
  obtain ⟨k, hlo, hhi, hb⟩ := h
  have hmono {i j : Nat} (hij : i ≤ j) : (magUnits i : ℚ) ≤ magUnits j :=
    Nat.cast_le.mpr (magUnits_strictMono.monotone hij)
  have hbelow : |(magUnits k : ℚ) - u| = u - magUnits k := by rw [abs_sub_comm, abs_of_nonneg (by linarith)]
  have habove : |(magUnits (k + 1) : ℚ) - u| = magUnits (k + 1) - u := abs_of_pos (by linarith)
  rcases Nat.lt_or_ge k j with hj | hj
  · have hk := hmono hj
    rw [abs_of_pos (show (0 : ℚ) < magUnits j - u by linarith)]
    rcases hb with ⟨rfl, hu⟩ | ⟨rfl, hu⟩
    · rw [hbelow]
      refine ⟨by rcases hu with hu | ⟨hu, -⟩ <;> linarith, fun he _ => ?_⟩
      rcases hu with hu | ⟨-, heven⟩
      · linarith
      · exact heven
    · rw [habove]
      exact ⟨by linarith, fun he hne => absurd (by linarith) hne⟩
  · have hk := hmono hj
    rw [abs_sub_comm (magUnits j : ℚ), abs_of_nonneg (show (0 : ℚ) ≤ u - magUnits j by linarith)]
    rcases hb with ⟨rfl, hu⟩ | ⟨rfl, hu⟩
    · rw [hbelow]
      exact ⟨by linarith, fun he hne => absurd (by linarith) hne⟩
    · rw [habove]
      refine ⟨by rcases hu with hu | ⟨hu, -⟩ <;> linarith, fun he _ => ?_⟩
      rcases hu with hu | ⟨-, hodd⟩
      · linarith
      · omega

/-- Rounding stays at or below an odd number exactly for what lies below the midpoint above it. -/
theorem RoundsTo.le_iff {u : ℚ} {b c : Nat} (h : RoundsTo u b) (hc : c % 2 = 1) :
    b ≤ c ↔ 2 * u < magUnits c + magUnits (c + 1) := by
  obtain ⟨k, hlo, hhi, hb⟩ := h
  have hmono {i j : Nat} (hij : i ≤ j) : (magUnits i : ℚ) ≤ magUnits j :=
    Nat.cast_le.mpr (magUnits_strictMono.monotone hij)
  have hstep : (magUnits c : ℚ) < magUnits (c + 1) := Nat.cast_lt.mpr (magUnits_strictMono (Nat.lt_succ_self c))
  rcases lt_trichotomy k c with hk | rfl | hk
  · have := hmono hk
    exact iff_of_true (by omega) (by linarith)
  · rcases hb with ⟨rfl, hu⟩ | ⟨rfl, hu⟩
    · refine iff_of_true le_rfl ?_
      rcases hu with hu | ⟨-, heven⟩
      · exact hu
      · omega
    · refine iff_of_false (by omega) (not_lt.mpr ?_)
      rcases hu with hu | ⟨hu, -⟩ <;> linarith
  · have := hmono hk
    exact iff_of_false (by omega) (not_lt.mpr (by linarith))

/-- The number of `nearestFloat`'s magnitude, before a result beyond the finite ones is made an infinity. -/
def nearestNumber (num den : Nat) : Nat :=
  let n := num * 2 ^ 149
  let t := Nat.log2 (n / den) - 23
  let d := den * 2 ^ t
  let q := n / d
  let r := n % d
  let up := d < 2 * r || (2 * r == d && q % 2 == 1)
  t * 2 ^ 23 + (if up then q + 1 else q)

theorem nearestFloat_eq (negative : Bool) (num den : Nat) :
    nearestFloat negative num den = signedWord negative (min (nearestNumber num den) 0x7F800000) := by
  have hmin : BitVec.ofNat 32 (min (nearestNumber num den) 0x7F800000) =
      if nearestNumber num den < 0x7F800000 then BitVec.ofNat 32 (nearestNumber num den) else 0x7F800000 := by
    split
    case isTrue h => rw [min_eq_left h.le]
    case isFalse h => 
      rw [min_eq_right (not_lt.mp h)]
      rfl
  rw [signedWord, hmin]
  rfl

/-- A number cut to 24 significant bits: the quotient has at most 24 bits, and no fewer unless nothing is cut off. -/
theorem cut_bounds (a : Nat) :
    a / 2 ^ (Nat.log2 a - 23) < 2 ^ 24 ∧ (Nat.log2 a - 23 = 0 ∨ 2 ^ 23 ≤ a / 2 ^ (Nat.log2 a - 23)) := by
  have hlt : a < 2 ^ (Nat.log2 a + 1) := Nat.lt_log2_self
  constructor
  · rw [Nat.div_lt_iff_lt_mul (by positivity), ← pow_add]
    exact hlt.trans_le (Nat.pow_le_pow_right (by decide) (by omega))
  · rw [or_iff_not_imp_left]
    intro ht
    have h0 : a ≠ 0 := by
      rintro rfl
      exact ht (by decide)
    have hlog : 23 + (Nat.log2 a - 23) = Nat.log2 a := by omega
    rw [Nat.le_div_iff_mul_le (by positivity), ← pow_add, hlog]
    exact Nat.log2_self_le h0

/-- What is cut off a significand, set against half of its last unit, decides between the two magnitudes around it. -/
theorem roundsTo_of_cut {t q : Nat} {c : ℚ} {up : Bool} (hq : q < 2 ^ 24) (ht : t = 0 ∨ 2 ^ 23 ≤ q) (h0 : 0 ≤ c)
    (h1 : c < 2 ^ t) (hup : up = true ↔ 2 ^ t < 2 * c ∨ (2 * c = 2 ^ t ∧ q % 2 = 1)) :
    RoundsTo (q * 2 ^ t + c) (t * 2 ^ 23 + if up then q + 1 else q) := by
  have hlo : (magUnits (t * 2 ^ 23 + q) : ℚ) = q * 2 ^ t := by
    rw [magUnits_placed hq.le ht]
    push_cast
    rfl
  have hhi : (magUnits (t * 2 ^ 23 + q + 1) : ℚ) = q * 2 ^ t + 2 ^ t := by
    rw [Nat.add_assoc, magUnits_placed hq (by omega)]
    push_cast
    ring
  refine ⟨t * 2 ^ 23 + q, by linarith, by linarith, ?_⟩
  rw [hlo, hhi]
  cases up with
  | true =>
    refine .inr ⟨(Nat.add_assoc (t * 2 ^ 23) q 1).symm, ?_⟩
    rcases hup.mp rfl with hc | ⟨hc, hodd⟩
    · exact .inl (by linarith)
    · exact .inr ⟨by linarith, by omega⟩
  | false =>
    obtain ⟨hle, hne⟩ := not_or.mp (mt hup.mpr Bool.false_ne_true)
    refine .inl ⟨rfl, ?_⟩
    rcases (not_lt.mp hle).lt_or_eq with hc | hc
    · exact .inl (by linarith)
    · have : q % 2 ≠ 1 := fun hodd => hne ⟨hc, hodd⟩
      exact .inr ⟨by linarith, by omega⟩

/-- The assembler's division is such a cut: what is cut off is the remainder over the denominator (R41). -/
theorem nearestNumber_roundsTo (num : Nat) {den : Nat} (hden : 0 < den) :
    RoundsTo ((num : ℚ) / den * 2 ^ 149) (nearestNumber num den) := by
  unfold nearestNumber
  obtain ⟨hq, ht⟩ := cut_bounds (num * 2 ^ 149 / den)
  rw [Nat.div_div_eq_div_mul] at hq ht
  extract_lets n t d q r up
  have hpos : (0 : ℚ) < den := Nat.cast_pos.mpr hden
  have hd : (d : ℚ) = 2 ^ t * den := by
    simp only [d]
    push_cast
    ring
  have hsplit : (num : ℚ) / den * 2 ^ 149 = q * 2 ^ t + (r : ℚ) / den := by
    have hn : (n : ℚ) = d * q + r := by exact_mod_cast (Nat.div_add_mod n d).symm
    have hnum : (n : ℚ) = num * 2 ^ 149 := by
      simp only [n]
      push_cast
      rfl
    rw [hd, hnum] at hn
    field_simp
    linarith
  have hr : r < d := Nat.mod_lt n (by positivity)
  rw [hsplit]
  refine roundsTo_of_cut hq ht (by positivity) ?_ ?_
  · rw [div_lt_iff₀ hpos, ← hd]
    exact_mod_cast hr
  · have hlt : (2 : ℚ) ^ t < 2 * (r / den) ↔ d < 2 * r := by
      rw [← mul_div_assoc, lt_div_iff₀ hpos, ← hd]
      norm_cast
    have heq : 2 * ((r : ℚ) / den) = 2 ^ t ↔ 2 * r = d := by
      rw [← mul_div_assoc, div_eq_iff hpos.ne', ← hd]
      norm_cast
    rw [hlt, heq]
    simp [up]

/-! ## O44, O43: the rounding -/

/-- The magnitude number of the assembler's word. -/
theorem magNumber_nearestFloat (negative : Bool) (num den : Nat) :
    magNumber (nearestFloat negative num den) = min (nearestNumber num den) 0x7F800000 := by
  rw [nearestFloat_eq, magNumber_signedWord negative (by omega)]

theorem sgn_nearestFloat (negative : Bool) (num den : Nat) : sgn (nearestFloat negative num den) = negative := by
  rw [nearestFloat_eq, sgn_signedWord negative (by omega)]

theorem finite_nearestFloat_iff (negative : Bool) (num den : Nat) :
    finite (nearestFloat negative num den) = true ↔ nearestNumber num den ≤ 0x7F7FFFFF := by
  rw [finite_iff, magNumber_nearestFloat]
  omega

/-- The finite results end at the midpoint between the largest finite magnitude and 2^128 (log 12). -/
theorem finite_nearestFloat_iff_lt (negative : Bool) (num : Nat) {den : Nat} (hden : 0 < den) :
    finite (nearestFloat negative num den) = true ↔ (num : ℚ) / den < 2 ^ 128 - 2 ^ 103 := by
  have hlo : (magUnits 0x7F7FFFFF : ℚ) = (2 ^ 24 - 1) * 2 ^ 253 := by
    rw [show (0x7F7FFFFF : Nat) = 253 * 2 ^ 23 + (2 ^ 24 - 1) from rfl, magUnits_placed (by decide) (.inr (by decide))]
    norm_num
  have hhi : (magUnits (0x7F7FFFFF + 1) : ℚ) = 2 ^ 24 * 2 ^ 253 := by
    rw [show (0x7F7FFFFF + 1 : Nat) = 253 * 2 ^ 23 + 2 ^ 24 from rfl, magUnits_placed (by decide) (.inr (by decide))]
    norm_num
  rw [finite_nearestFloat_iff, (nearestNumber_roundsTo num hden).le_iff (by decide), hlo, hhi]
  constructor <;> intro h <;> linarith

/-- Distances between magnitudes, in units of 2^-149. -/
theorem abs_absVal_sub (x : Word) (v : ℚ) :
    |absVal x - v| = |(magUnits (magNumber x) : ℚ) - v * 2 ^ 149| / 2 ^ 149 := by
  have h : absVal x - v = ((magUnits (magNumber x) : ℚ) - v * 2 ^ 149) / 2 ^ 149 := by
    rw [absVal_eq_magUnits]
    ring
  rw [h, abs_div, abs_of_pos (show (0 : ℚ) < 2 ^ 149 by positivity)]

/-- No finite word's magnitude is nearer than a finite result, and on a tie the result is even (R41). -/
theorem nearestFloat_nearest (negative : Bool) (num : Nat) {den : Nat} (hden : 0 < den)
    (hf : finite (nearestFloat negative num den) = true) (x : Word) :
    |absVal (nearestFloat negative num den) - (num : ℚ) / den| ≤ |absVal x - (num : ℚ) / den| ∧
    (|absVal (nearestFloat negative num den) - (num : ℚ) / den| = |absVal x - (num : ℚ) / den| →
      absVal x ≠ absVal (nearestFloat negative num den) → (nearestFloat negative num den).getLsbD 0 = false) := by
  have hnum : magNumber (nearestFloat negative num den) = nearestNumber num den := by
    have := (finite_nearestFloat_iff negative num den).mp hf
    rw [magNumber_nearestFloat]
    omega
  obtain ⟨hle, htie⟩ := (nearestNumber_roundsTo num hden).nearest (magNumber x)
  rw [abs_absVal_sub, abs_absVal_sub, absVal_eq_magUnits, absVal_eq_magUnits, getLsbD_zero_eq, hnum]
  refine ⟨div_le_div_of_nonneg_right hle (by positivity), fun he hne => ?_⟩
  have heven := htie ((div_left_inj' (by positivity)).mp he) fun h => hne (by rw [h])
  exact decide_eq_false (by omega)

/-- The largest finite magnitude (R8). -/
theorem absVal_largest_finite : absVal 0x7F7FFFFF = 2 ^ 128 - 2 ^ 104 := by
  have hm : magNumber 0x7F7FFFFF = 253 * 2 ^ 23 + (2 ^ 24 - 1) := by decide
  rw [absVal_eq_magUnits, hm, magUnits_placed (by decide) (.inr (by decide))]
  norm_num

theorem absVal_le_largest {x : Word} (h : finite x = true) : absVal x ≤ absVal 0x7F7FFFFF := by
  have hle : magNumber x ≤ magNumber 0x7F7FFFFF := Nat.le_of_lt_succ ((finite_iff x).mp h)
  rw [absVal_eq_magUnits, absVal_eq_magUnits]
  exact div_le_div_of_nonneg_right (Nat.cast_le.mpr (magUnits_strictMono.monotone hle)) (by positivity)

/-- Up to the largest finite magnitude the result is finite (R41). -/
theorem finite_nearestFloat_of_le (negative : Bool) (num : Nat) {den : Nat} (hden : 0 < den)
    (h : (num : ℚ) / den ≤ absVal 0x7F7FFFFF) : finite (nearestFloat negative num den) = true := by
  rw [absVal_largest_finite] at h
  rw [finite_nearestFloat_iff_lt negative num hden]
  linarith

/-- Past the finite results the word is the infinity of its sign (log 12). -/
theorem nearestFloat_of_not_finite {negative : Bool} {num den : Nat}
    (h : finite (nearestFloat negative num den) = false) :
    nearestFloat negative num den = if negative then 0xFF800000 else 0x7F800000 := by
  have hbig : ¬ nearestNumber num den ≤ 0x7F7FFFFF := by
    rw [← finite_nearestFloat_iff negative, h]
    decide
  rw [nearestFloat_eq, min_eq_right (by omega)]
  cases negative <;> rfl

/-- A fraction that is exactly a finite word's magnitude is that word's: nothing is as near as itself (R41). -/
theorem nearestFloat_exact {x : Word} {num den : Nat} (hx : finite x = true) (hden : 0 < den)
    (hv : (num : ℚ) / den = absVal x) : nearestFloat (sgn x) num den = x := by
  have hf := finite_nearestFloat_of_le (sgn x) num hden (hv ▸ absVal_le_largest hx)
  obtain ⟨hle, -⟩ := nearestFloat_nearest (sgn x) num hden hf x
  rw [hv, sub_self, abs_zero, abs_nonpos_iff, sub_eq_zero] at hle
  exact word_eq_of_sgn_of_absVal (sgn_nearestFloat ..) hle

/-! ## O44, O43: the literal -/

/-- The two forms of a literal whose digits stand for a fraction: a number, or two numbers around a point. -/
theorem literalFraction_cases {whole : List Char} {part : Option (List Char)} {num den : Nat}
    (h : literalFraction whole part = some (num, den)) :
    (part = none ∧ decimal whole = some num ∧ den = 1) ∨
    (∃ p n f, part = some p ∧ decimal whole = some n ∧ decimal p = some f ∧
      num = n * 10 ^ p.length + f ∧ den = 10 ^ p.length) := by
  cases part with
  | none =>
    obtain ⟨n, hn, ⟨⟩⟩ := Option.map_eq_some_iff.mp h
    exact .inl ⟨rfl, hn, rfl⟩
  | some p =>
    simp only [literalFraction] at h
    split at h
    case h_1 n f hn hf =>
      cases h
      exact .inr ⟨p, n, f, rfl, hn, hf, rfl, rfl⟩
    case h_2 => cases h

theorem decimal_of_literalFraction {whole : List Char} {part : Option (List Char)} {num den : Nat}
    (h : literalFraction whole part = some (num, den)) : ∃ n, decimal whole = some n := by
  obtain ⟨-, hn, -⟩ | ⟨-, n, -, -, hn, -⟩ := literalFraction_cases h
  · exact ⟨num, hn⟩
  · exact ⟨n, hn⟩

/-- A denominator is a power of 10. -/
theorem literalFraction_den_pos {whole : List Char} {part : Option (List Char)} {num den : Nat}
    (h : literalFraction whole part = some (num, den)) : 0 < den := by
  obtain ⟨-, -, rfl⟩ | ⟨p, -, -, -, -, -, -, rfl⟩ := literalFraction_cases h
  · exact Nat.one_pos
  · exact Nat.pow_pos (by decide)

/-- A literal without its sign is rounded from the fraction its digits stand for (R41). -/
theorem unsignedLiteral_of_fraction {whole : List Char} {part : Option (List Char)} {num den : Nat}
    (h : literalFraction whole part = some (num, den)) (negative : Bool) :
    unsignedLiteral negative (whole ++ pointText part) = some (nearestFloat negative num den) := by
  obtain ⟨n, hn⟩ := decimal_of_literalFraction h
  obtain ⟨-, hpoint, -⟩ := decimal_chars hn
  obtain ⟨rfl, hnum, rfl⟩ | ⟨p, m, f, rfl, hm, hf, rfl, rfl⟩ := literalFraction_cases h
  · rw [pointText_none, List.append_nil, unsignedLiteral, splitPoint_of_no_point hpoint]
    simp only [hnum, Option.map_some]
  · rw [pointText_some, unsignedLiteral, splitPoint_at_point hpoint]
    simp only [hm, hf]

/-- ENCODE's operand takes the minus sign for the sign bit: a literal's digits hold none (R41). -/
theorem floatDin_literalText {whole : List Char} {part : Option (List Char)} {num den : Nat}
    (h : literalFraction whole part = some (num, den)) (negative : Bool) :
    floatDin ("din=f".toList ++ literalText negative whole part) = some (nearestFloat negative num den) := by
  rw [← unsignedLiteral_of_fraction h negative]
  cases negative with
  | true => rfl
  | false =>
    obtain ⟨n, hn⟩ := decimal_of_literalFraction h
    obtain ⟨hne, -, hminus⟩ := decimal_chars hn
    match whole, hne with
    | c :: cs, _ =>
      have hc : c ≠ '-' := fun hc => hminus (hc ▸ List.mem_cons_self)
      have hdin : dinText ("din=f".toList ++ literalText false (c :: cs) part) =
          some ('f' :: c :: (cs ++ pointText part)) := rfl
      rw [floatDin, hdin]
      split
      case h_1 heq =>
        simp only [Option.some.injEq, List.cons.injEq] at heq
        exact absurd heq.2.1 hc
      case h_2 heq =>
        cases heq
        rfl
      case h_3 hother => exact absurd rfl (hother _)

/-- Settles O44: the result is the nearest of the two magnitudes around the fraction, or the infinity that stands in its
place, and a literal is read as that rounding. -/
theorem literalsAssembleToANearestWord : Obligations.LiteralsAssembleToANearestWord :=
  ⟨fun negative num _ hden => ⟨sgn_nearestFloat .., finite_nearestFloat_of_le negative num hden,
      finite_nearestFloat_iff_lt negative num hden, nearestFloat_of_not_finite,
      fun hf x _ => nearestFloat_nearest negative num hden hf x⟩,
    fun negative _ _ _ _ h => ⟨literalFraction_den_pos h, floatDin_literalText h negative⟩⟩

/-- Settles O43: what is nearest to a finite word's own magnitude is that magnitude. -/
theorem exactLiteralsAssembleToTheirWord : Obligations.ExactLiteralsAssembleToTheirWord := by
  refine ⟨fun x num den hx hden hv => nearestFloat_exact hx hden hv, fun x whole part num den hx h hv => ?_⟩
  rw [floatDin_literalText h, nearestFloat_exact hx (literalFraction_den_pos h) hv]

end Sys2Proof.Machine
end
